-- ==== Sys2Proof/Word.lean ====
section
/-! DEFINITION. The word types of the CORE (00_scope.md R6, R7, R8): every value is unsigned. -/

namespace Sys2Proof

/-- A byte: a general register, a timer, a cell of memory, an immediate `kk` (R6, R30, R70). -/
abbrev Byte := BitVec 8

/-- A 16-bit word: an instruction word, PC, I, a stack entry (R6, R100). -/
abbrev Word := BitVec 16

/-- The 12-bit address field `nnn` (R101). -/
abbrev Addr := BitVec 12

/-- A register number, 0..15: every value of a 4-bit field names a register (R30). -/
abbrev Reg := Fin 16

end Sys2Proof
end

