-- ==== Sys2Proof/Syntax.lean ====
section
/-! DEFINITION. The instructions: one constructor per row of spec/opcode_table.json (30_encoding.md R105), in its order.
Operands are the fields of R101: `x`, `y` register numbers, `nnn` a 12-bit address, `kk` a byte, `n` a row count 0..15. -/

namespace Sys2Proof

/-- The 34 instructions (R2, R105). UNKNOWN words are no row of the table and no constructor: the decoder names them
(`Decoded.unknown`, log 6). -/
inductive Instr where
  /-- `00E0` CLS (R261). -/
  | cls
  /-- `00EE` RET (R162). -/
  | ret
  /-- `1nnn` JP addr (R163). -/
  | jp (nnn : Addr)
  /-- `2nnn` CALL addr (R164). -/
  | call (nnn : Addr)
  /-- `3xkk` SE Vx,kk (R165). -/
  | seVxKk (x : Reg) (kk : Byte)
  /-- `4xkk` SNE Vx,kk (R166). -/
  | sneVxKk (x : Reg) (kk : Byte)
  /-- `5xy?` SE Vx,Vy (R167). -/
  | seVxVy (x y : Reg)
  /-- `6xkk` LD Vx,kk (R192). -/
  | ldVxKk (x : Reg) (kk : Byte)
  /-- `7xkk` ADD Vx,kk (R193). -/
  | addVxKk (x : Reg) (kk : Byte)
  /-- `8xy0` LD Vx,Vy (R194). -/
  | ldVxVy (x y : Reg)
  /-- `8xy1` OR Vx,Vy (R195). -/
  | orVxVy (x y : Reg)
  /-- `8xy2` AND Vx,Vy (R196). -/
  | andVxVy (x y : Reg)
  /-- `8xy3` XOR Vx,Vy (R197). -/
  | xorVxVy (x y : Reg)
  /-- `8xy4` ADD Vx,Vy (R198). -/
  | addVxVy (x y : Reg)
  /-- `8xy5` SUB Vx,Vy (R199). -/
  | subVxVy (x y : Reg)
  /-- `8xy6` SHR Vx; `y` is ignored (R200). -/
  | shrVx (x : Reg)
  /-- `8xy7` SUBN Vx,Vy (R201). -/
  | subnVxVy (x y : Reg)
  /-- `8xyE` SHL Vx; `y` is ignored (R202). -/
  | shlVx (x : Reg)
  /-- `9xy?` SNE Vx,Vy (R168). -/
  | sneVxVy (x y : Reg)
  /-- `Annn` LD I,addr (R230). -/
  | ldIAddr (nnn : Addr)
  /-- `Bnnn` JP V0,addr (R169). -/
  | jpV0Addr (nnn : Addr)
  /-- `Cxkk` RND Vx,kk (R203). -/
  | rndVxKk (x : Reg) (kk : Byte)
  /-- `Dxyn` DRW Vx,Vy,n (R262). -/
  | drwVxVyN (x y : Reg) (n : Fin 16)
  /-- `Ex9E` SKP Vx (R293). -/
  | skpVx (x : Reg)
  /-- `ExA1` SKNP Vx (R294). -/
  | sknpVx (x : Reg)
  /-- `Fx07` LD Vx,DT (R290). -/
  | ldVxDt (x : Reg)
  /-- `Fx0A` LD Vx,K (R295). -/
  | ldVxK (x : Reg)
  /-- `Fx15` LD DT,Vx (R291). -/
  | ldDtVx (x : Reg)
  /-- `Fx18` LD ST,Vx (R292). -/
  | ldStVx (x : Reg)
  /-- `Fx1E` ADD I,Vx (R231). -/
  | addIVx (x : Reg)
  /-- `Fx29` LD F,Vx (R232). -/
  | ldFVx (x : Reg)
  /-- `Fx33` LD B,Vx (R233). -/
  | ldBVx (x : Reg)
  /-- `Fx55` LD [I],Vx (R234). -/
  | ldMemVx (x : Reg)
  /-- `Fx65` LD Vx,[I] (R235). -/
  | ldVxMem (x : Reg)
  deriving DecidableEq, Repr

end Sys2Proof
end

