-- ==== Sys2Proof/Decode.lean ====
section
/-! DEFINITION. The decoder (30_encoding.md R101, R104), total on all 65536 words, and after it the encoder (R105, R109).
The bit patterns are the spec's, which marks most of them as general knowledge (log 5). -/

namespace Sys2Proof

/-- The word that two consecutive bytes spell: big-endian (20_memory.md R73). -/
def wordOfBytes (hi lo : Byte) : Word := hi ++ lo

/-- The two bytes of a word, in the order memory holds them (R73). -/
def bytesOfWord (op : Word) : Byte × Byte := (op.extractLsb' 8 8, op.extractLsb' 0 8)

/-- `op[15:12]`, the family (R101). -/
def familyField (op : Word) : BitVec 4 := op.extractLsb' 12 4

/-- `op[3:0]` as a selector (R101). -/
def lowNibble (op : Word) : BitVec 4 := op.extractLsb' 0 4

/-- `x = op[11:8]` (R101). -/
def xField (op : Word) : Reg := (op.extractLsb' 8 4).toFin

/-- `y = op[7:4]` (R101). -/
def yField (op : Word) : Reg := (op.extractLsb' 4 4).toFin

/-- `n = op[3:0]`, the sprite height (R101). -/
def nField (op : Word) : Fin 16 := (lowNibble op).toFin

/-- `kk = op[7:0]` (R101). -/
def kkField (op : Word) : Byte := op.extractLsb' 0 8

/-- `nnn = op[11:0]` (R101). -/
def nnnField (op : Word) : Addr := op.extractLsb' 0 12

/-- What a word decodes to: one of the 34 instructions, or UNKNOWN, by name, with the word (R104, R106). -/
inductive Decoded where
  | instr (i : Instr)
  | unknown (op : Word)
  deriving DecidableEq, Repr

/-- R104. A family that the list of R104 does not disambiguate (1..7, 9..D) decodes on the top nibble alone. -/
def decode (op : Word) : Decoded :=
  let x := xField op
  let y := yField op
  let kk := kkField op
  let nnn := nnnField op
  match familyField op with
  | 0x0#4 =>
    if op = 0x00E0#16 then .instr .cls
    else if op = 0x00EE#16 then .instr .ret
    else .unknown op
  | 0x1#4 => .instr (.jp nnn)
  | 0x2#4 => .instr (.call nnn)
  | 0x3#4 => .instr (.seVxKk x kk)
  | 0x4#4 => .instr (.sneVxKk x kk)
  | 0x5#4 => .instr (.seVxVy x y)
  | 0x6#4 => .instr (.ldVxKk x kk)
  | 0x7#4 => .instr (.addVxKk x kk)
  | 0x8#4 =>
    match lowNibble op with
    | 0x0#4 => .instr (.ldVxVy x y)
    | 0x1#4 => .instr (.orVxVy x y)
    | 0x2#4 => .instr (.andVxVy x y)
    | 0x3#4 => .instr (.xorVxVy x y)
    | 0x4#4 => .instr (.addVxVy x y)
    | 0x5#4 => .instr (.subVxVy x y)
    | 0x6#4 => .instr (.shrVx x)
    | 0x7#4 => .instr (.subnVxVy x y)
    | 0xE#4 => .instr (.shlVx x)
    | _ => .unknown op
  | 0x9#4 => .instr (.sneVxVy x y)
  | 0xA#4 => .instr (.ldIAddr nnn)
  | 0xB#4 => .instr (.jpV0Addr nnn)
  | 0xC#4 => .instr (.rndVxKk x kk)
  | 0xD#4 => .instr (.drwVxVyN x y (nField op))
  | 0xE#4 =>
    match kk with
    | 0x9E#8 => .instr (.skpVx x)
    | 0xA1#8 => .instr (.sknpVx x)
    | _ => .unknown op
  | _ => -- 0xF, the one family left
    match kk with
    | 0x07#8 => .instr (.ldVxDt x)
    | 0x0A#8 => .instr (.ldVxK x)
    | 0x15#8 => .instr (.ldDtVx x)
    | 0x18#8 => .instr (.ldStVx x)
    | 0x1E#8 => .instr (.addIVx x)
    | 0x29#8 => .instr (.ldFVx x)
    | 0x33#8 => .instr (.ldBVx x)
    | 0x55#8 => .instr (.ldMemVx x)
    | 0x65#8 => .instr (.ldVxMem x)
    | _ => .unknown op

/-- The 4 bits of a register number or of a row count. -/
def nibble (x : Fin 16) : BitVec 4 := BitVec.ofFin x

/-- Format A of R102: `oooo nnnn nnnn nnnn`. -/
def encodeA (family : BitVec 4) (nnn : Addr) : Word := family ++ nnn

/-- Formats XK and X of R102: `oooo xxxx kkkk kkkk`, where X has its selector for `kk`. -/
def encodeXK (family : BitVec 4) (x : Reg) (kk : Byte) : Word :=
  family ++ (nibble x ++ kk : Addr)

/-- Formats XY and XYN of R102: `oooo xxxx yyyy ssss`. -/
def encodeXY (family : BitVec 4) (x y : Reg) (s : BitVec 4) : Word :=
  family ++ (nibble x ++ (nibble y ++ s : Byte) : Addr)

/-- The canonical word of an instruction (R105, R109). -/
def encode : Instr → Word
  | .cls => 0x00E0#16
  | .ret => 0x00EE#16
  | .jp nnn => encodeA 0x1#4 nnn
  | .call nnn => encodeA 0x2#4 nnn
  | .seVxKk x kk => encodeXK 0x3#4 x kk
  | .sneVxKk x kk => encodeXK 0x4#4 x kk
  | .seVxVy x y => encodeXY 0x5#4 x y 0x0#4
  | .ldVxKk x kk => encodeXK 0x6#4 x kk
  | .addVxKk x kk => encodeXK 0x7#4 x kk
  | .ldVxVy x y => encodeXY 0x8#4 x y 0x0#4
  | .orVxVy x y => encodeXY 0x8#4 x y 0x1#4
  | .andVxVy x y => encodeXY 0x8#4 x y 0x2#4
  | .xorVxVy x y => encodeXY 0x8#4 x y 0x3#4
  | .addVxVy x y => encodeXY 0x8#4 x y 0x4#4
  | .subVxVy x y => encodeXY 0x8#4 x y 0x5#4
  | .shrVx x => encodeXY 0x8#4 x 0 0x6#4
  | .subnVxVy x y => encodeXY 0x8#4 x y 0x7#4
  | .shlVx x => encodeXY 0x8#4 x 0 0xE#4
  | .sneVxVy x y => encodeXY 0x9#4 x y 0x0#4
  | .ldIAddr nnn => encodeA 0xA#4 nnn
  | .jpV0Addr nnn => encodeA 0xB#4 nnn
  | .rndVxKk x kk => encodeXK 0xC#4 x kk
  | .drwVxVyN x y n => encodeXY 0xD#4 x y (nibble n)
  | .skpVx x => encodeXK 0xE#4 x 0x9E#8
  | .sknpVx x => encodeXK 0xE#4 x 0xA1#8
  | .ldVxDt x => encodeXK 0xF#4 x 0x07#8
  | .ldVxK x => encodeXK 0xF#4 x 0x0A#8
  | .ldDtVx x => encodeXK 0xF#4 x 0x15#8
  | .ldStVx x => encodeXK 0xF#4 x 0x18#8
  | .addIVx x => encodeXK 0xF#4 x 0x1E#8
  | .ldFVx x => encodeXK 0xF#4 x 0x29#8
  | .ldBVx x => encodeXK 0xF#4 x 0x33#8
  | .ldMemVx x => encodeXK 0xF#4 x 0x55#8
  | .ldVxMem x => encodeXK 0xF#4 x 0x65#8

/-- The row of R105 that an instruction comes from, as its pair (mask, match): a second view of the decoder's selection,
"an instruction is selected when `op & mask == match`". -/
def rowOf : Instr → Word × Word
  | .cls => (0xFFFF#16, 0x00E0#16)
  | .ret => (0xFFFF#16, 0x00EE#16)
  | .jp _ => (0xF000#16, 0x1000#16)
  | .call _ => (0xF000#16, 0x2000#16)
  | .seVxKk _ _ => (0xF000#16, 0x3000#16)
  | .sneVxKk _ _ => (0xF000#16, 0x4000#16)
  | .seVxVy _ _ => (0xF000#16, 0x5000#16)
  | .ldVxKk _ _ => (0xF000#16, 0x6000#16)
  | .addVxKk _ _ => (0xF000#16, 0x7000#16)
  | .ldVxVy _ _ => (0xF00F#16, 0x8000#16)
  | .orVxVy _ _ => (0xF00F#16, 0x8001#16)
  | .andVxVy _ _ => (0xF00F#16, 0x8002#16)
  | .xorVxVy _ _ => (0xF00F#16, 0x8003#16)
  | .addVxVy _ _ => (0xF00F#16, 0x8004#16)
  | .subVxVy _ _ => (0xF00F#16, 0x8005#16)
  | .shrVx _ => (0xF00F#16, 0x8006#16)
  | .subnVxVy _ _ => (0xF00F#16, 0x8007#16)
  | .shlVx _ => (0xF00F#16, 0x800E#16)
  | .sneVxVy _ _ => (0xF000#16, 0x9000#16)
  | .ldIAddr _ => (0xF000#16, 0xA000#16)
  | .jpV0Addr _ => (0xF000#16, 0xB000#16)
  | .rndVxKk _ _ => (0xF000#16, 0xC000#16)
  | .drwVxVyN _ _ _ => (0xF000#16, 0xD000#16)
  | .skpVx _ => (0xF0FF#16, 0xE09E#16)
  | .sknpVx _ => (0xF0FF#16, 0xE0A1#16)
  | .ldVxDt _ => (0xF0FF#16, 0xF007#16)
  | .ldVxK _ => (0xF0FF#16, 0xF00A#16)
  | .ldDtVx _ => (0xF0FF#16, 0xF015#16)
  | .ldStVx _ => (0xF0FF#16, 0xF018#16)
  | .addIVx _ => (0xF0FF#16, 0xF01E#16)
  | .ldFVx _ => (0xF0FF#16, 0xF029#16)
  | .ldBVx _ => (0xF0FF#16, 0xF033#16)
  | .ldMemVx _ => (0xF0FF#16, 0xF055#16)
  | .ldVxMem _ => (0xF0FF#16, 0xF065#16)

/-- The 34 rows of R105, in its order, as (mask, match). -/
def opcodeRows : List (Word × Word) :=
  [(0xFFFF#16, 0x00E0#16), (0xFFFF#16, 0x00EE#16), (0xF000#16, 0x1000#16), (0xF000#16, 0x2000#16),
   (0xF000#16, 0x3000#16), (0xF000#16, 0x4000#16), (0xF000#16, 0x5000#16), (0xF000#16, 0x6000#16),
   (0xF000#16, 0x7000#16), (0xF00F#16, 0x8000#16), (0xF00F#16, 0x8001#16), (0xF00F#16, 0x8002#16),
   (0xF00F#16, 0x8003#16), (0xF00F#16, 0x8004#16), (0xF00F#16, 0x8005#16), (0xF00F#16, 0x8006#16),
   (0xF00F#16, 0x8007#16), (0xF00F#16, 0x800E#16), (0xF000#16, 0x9000#16), (0xF000#16, 0xA000#16),
   (0xF000#16, 0xB000#16), (0xF000#16, 0xC000#16), (0xF000#16, 0xD000#16), (0xF0FF#16, 0xE09E#16),
   (0xF0FF#16, 0xE0A1#16), (0xF0FF#16, 0xF007#16), (0xF0FF#16, 0xF00A#16), (0xF0FF#16, 0xF015#16),
   (0xF0FF#16, 0xF018#16), (0xF0FF#16, 0xF01E#16), (0xF0FF#16, 0xF029#16), (0xF0FF#16, 0xF033#16),
   (0xF0FF#16, 0xF055#16), (0xF0FF#16, 0xF065#16)]

/-- R105: whether a row selects a word. -/
def selects (op : Word) (row : Word × Word) : Bool := op &&& row.1 = row.2

/-- The instruction that the decoder reads from the bits of a table row, numbered as spec/opcode_table.json numbers them
(bit 0 the least significant of the word): the word's two bytes are laid out big-endian (R73) and decoded. Bits above
`nbits` are 0; an instruction has 16. -/
def decodeTableWord (nbits w : Nat) : Option Instr :=
  let (hi, lo) := bytesOfWord (BitVec.ofNat 16 (w % 2 ^ nbits))
  match decode (wordOfBytes hi lo) with
  | .instr i => some i
  | .unknown _ => none

end Sys2Proof
end

