-- ==== Sys2Proof/Config.lean ====
section
/-! DEFINITION. What is fixed for one machine (00_scope.md R6): the sizes, the two parameters that R6 marks
"argument", and the one value the spec leaves free. -/

namespace Sys2Proof.Config

/-- `MEM_SIZE`: addresses 0..4095 (R6, R70). -/
abbrev memSize : Nat := 4096

/-- `PROG_BASE`: where LOAD puts the image and where PC starts (R6, R72). -/
abbrev progBase : Nat := 512

/-- `PROG_MAX`: the longest image LOAD accepts (R6, R372). -/
abbrev progMax : Nat := 3584

/-- `FONT_BASE` (R6). -/
abbrev fontBase : Nat := 0

/-- `FONT_STRIDE`: bytes in a glyph (R6, R232). -/
abbrev fontStride : Nat := 5

/-- The 80-byte font as 16 glyphs of 5 bytes: glyph d is `FONT[5d .. 5d+4]` (R371). -/
abbrev Font := Vector (Vector Byte 5) 16

/-- The parameters R6 marks "argument". They are data of the machine's state (field `params`), so a statement about
every state is a statement about every value of both; nothing the machine does writes them.
DESIGN CHOICE (log 3; safe). -/
structure Params where
  /-- `i_mask_12`: whether `ADD I,Vx` keeps 12 bits of I instead of 16 (R6, R231). -/
  iMask12 : Bool
  /-- `FONT` (R6, R371). -/
  font : Font
  deriving DecidableEq, Repr

/-- FREE VALUE. The random byte that the n-th draw supplies (`r` of `STEP(r)`, 60_exceptions.md R333: "a free input of
each STEP, a draw under no law"). No body: nothing is known of it. DESIGN CHOICE (log 1; safe). -/
opaque randomByte : Nat → Byte

end Sys2Proof.Config
end

