-- ==== Sys2Proof/Machine/Font.lean ====
section
/-! DEFINITION. The default parameters (00_scope.md R6): the font table of 70_reset_and_hazards.md R371 and
`i_mask_12 = false`. -/

namespace Sys2Proof.Machine

/-- The default `FONT` (R371), top row first. The bytes are the spec's from general knowledge (B3); PRESUMED, unsafe for
a statement about pixels (log 4). -/
def defaultFont : Config.Font :=
  #v[#v[0xF0, 0x90, 0x90, 0x90, 0xF0],
     #v[0x20, 0x60, 0x20, 0x20, 0x70],
     #v[0xF0, 0x10, 0xF0, 0x80, 0xF0],
     #v[0xF0, 0x10, 0xF0, 0x10, 0xF0],
     #v[0x90, 0x90, 0xF0, 0x10, 0x10],
     #v[0xF0, 0x80, 0xF0, 0x10, 0xF0],
     #v[0xF0, 0x80, 0xF0, 0x90, 0xF0],
     #v[0xF0, 0x10, 0x20, 0x40, 0x40],
     #v[0xF0, 0x90, 0xF0, 0x90, 0xF0],
     #v[0xF0, 0x90, 0xF0, 0x10, 0xF0],
     #v[0xF0, 0x90, 0xF0, 0x90, 0x90],
     #v[0xE0, 0x90, 0xE0, 0x90, 0xE0],
     #v[0xF0, 0x80, 0x80, 0x80, 0xF0],
     #v[0xE0, 0x90, 0x90, 0x90, 0xE0],
     #v[0xF0, 0x80, 0xF0, 0x80, 0xF0],
     #v[0xF0, 0x80, 0xF0, 0x80, 0x80]]

/-- The parameters of a machine that is given none (R6). -/
def defaultParams : Config.Params := { iMask12 := false, font := defaultFont }

end Sys2Proof.Machine
end

