-- ==== Sys2Proof/Machine/State.lean ====
section
/-! DEFINITION. The state of the CORE (10_state.md R30 to R42) as plain data, its reset value (70_reset_and_hazards.md
R370), and the reasons an outcome can carry. -/

namespace Sys2Proof.Machine

/-- Why a step could stop OUTSIDE the machine's own state. Nothing does: every fault of the spec (60_exceptions.md R320)
is taken, as the next state that R321 describes, so this type has no constructor and no outcome can be a fault
(log 7; safe). -/
inductive Fault where
  deriving DecidableEq, Repr

/-- Why a step could give no meaning. -/
inductive Refusal where
  /-- Raised by `exec` alone, for an instruction it does not model yet, by its mnemonic; every instruction is modelled, so
  nothing raises it. Safe. -/
  | notModelled (mnemonic : String)
  deriving DecidableEq, Repr

/-- `FAULT_CODE` (10_state.md R39, 60_exceptions.md R320): which fault halted the CORE. Held by name; its 3-bit number is
`FaultCode.number` (log 10). -/
inductive FaultCode where
  /-- 0: no fault has occurred. -/
  | none
  /-- 1: `PC + 1 >= 4096` at fetch; raised by the fetch of every step (R141). -/
  | fetchError
  /-- 2: CALL with SP = 16 (R160, R164). -/
  | stackOverflow
  /-- 3: RET with SP = 0 (R161, R162). -/
  | stackUnderflow
  /-- 4: a data address of 4096 or more; raised by DRW, LD B, LD [I] and LD Vx,[I] (R71). -/
  | memRange
  /-- 5: SKP or SKNP with `V[x] > 15` (R293, R294). -/
  | keyRange
  deriving DecidableEq, Repr

/-- The display `DISP[r][c]`: 32 rows of 64 cells, `true` a set cell (R36, R260). -/
abbrev Display := Vector (Vector Bool 64) 32

/-- Memory as the cells whose byte differs from the reset contents, at strictly rising addresses (R38; log 13). -/
abbrev Memory := List Host.Cell

/-- The whole state of the CORE (R30 to R42), and two fields of the model's own, `params` and `draws`. -/
structure State where
  /-- `V[0]`..`V[15]`; VF is `V[15]` (R30, R31). -/
  v : Vector Byte 16
  /-- `I` (R33). -/
  i : Word
  /-- `PC` (R32). -/
  pc : Word
  /-- `SP`, the number of stack slots in use, 0..16 (R34; log 8). -/
  sp : Fin 17
  /-- `STACK[0]`..`STACK[15]` (R34). -/
  stack : Vector Word 16
  /-- `DT` (R35). -/
  dt : Byte
  /-- `ST` (R35). -/
  st : Byte
  /-- `DISP` (R36). -/
  disp : Display
  /-- `KEY`: bit k is `KEY[k]`, set when logical key k is held (R37, R329). -/
  key : BitVec 16
  /-- `MEM` (R38). -/
  mem : Memory
  /-- `HALTED` (R39). -/
  halted : Bool
  /-- `FAULT_CODE` (R39). -/
  faultCode : FaultCode
  /-- `FAULT_ADDR` (R39, R322). -/
  faultAddr : Word
  /-- `LOAD_LOCK` (R39). -/
  loadLock : Bool
  /-- The machine's parameters (R6); never written (log 3). -/
  params : Config.Params
  /-- How many random bytes have been drawn: names the next free value (R333; log 1). -/
  draws : Nat
  deriving DecidableEq, Repr

/-- The state RESET leaves on a machine with parameters `p` (R370, R42), no random byte drawn yet (log 2). -/
def State.resetWith (p : Config.Params) : State where
  v := Vector.replicate 16 0#8
  i := 0#16
  pc := 512#16
  sp := 0
  stack := Vector.replicate 16 0#16
  dt := 0#8
  st := 0#8
  disp := Vector.replicate 32 (Vector.replicate 64 false)
  key := 0#16
  mem := []
  halted := false
  faultCode := .none
  faultAddr := 0#16
  loadLock := false
  params := p
  draws := 0

/-- The machine right after reset, which is also its state at power-on (R370, D34), with the default parameters (R6). -/
def State.reset : State := State.resetWith defaultParams

end Sys2Proof.Machine
end

