-- ==== Sys2Proof/Machine/Memory.lean ====
section
/-! DEFINITION. Memory as a canonical list of cells over its reset contents (20_memory.md R70 to R72; log 13). -/

namespace Sys2Proof.Machine

/-- What RESET leaves at an address (70_reset_and_hazards.md R370, R371): the font at 0..79, 0 elsewhere. It is also what
an address that the list does not hold reads as. -/
def resetByte (p : Config.Params) (a : Nat) : Byte :=
  if h : a < 80 then
    (p.font[a / Config.fontStride]'(by simp only [Config.fontStride]; omega))[a % Config.fontStride]'(by
      simp only [Config.fontStride]; omega)
  else 0#8

/-- The byte at an address: the listed one, else the reset byte. -/
def Memory.read (p : Config.Params) : Memory → Nat → Byte
  | [], a => resetByte p a
  | c :: m, a => if c.1 = a then c.2 else Memory.read p m a

/-- Put a cell in its place, over an older one at the same address. -/
def Memory.insert (a : Nat) (b : Byte) : Memory → Memory
  | [] => [(a, b)]
  | c :: m =>
    if a < c.1 then (a, b) :: c :: m
    else if a = c.1 then (a, b) :: m
    else c :: Memory.insert a b m

/-- Remove the cell at an address, if there is one. -/
def Memory.erase (a : Nat) : Memory → Memory
  | [] => []
  | c :: m => if c.1 = a then m else c :: Memory.erase a m

/-- Write a byte, keeping the canonical form: a byte equal to the reset contents is not listed. -/
def Memory.write (p : Config.Params) (m : Memory) (a : Nat) (b : Byte) : Memory :=
  if b = resetByte p a then m.erase a else m.insert a b

/-- The canonical form: addresses strictly rising and inside 0..4095, no cell equal to the reset contents. -/
abbrev Memory.wf (p : Config.Params) (m : Memory) : Prop :=
  m.Pairwise (fun c d => c.1 < d.1) ∧ ∀ c ∈ m, c.1 < Config.memSize ∧ c.2 ≠ resetByte p c.1

end Sys2Proof.Machine
end

