-- ==== Sys2Proof/Machine/Ops.lean ====
section
/-! DEFINITION. The shared operations: the writes of each piece of state, memory by the byte, the range check, the stack
primitives, the fetch, the PC sequencer, and taking a fault. -/

namespace Sys2Proof.Machine

/-- What executing answers. -/
abbrev Result := Host.Outcome State Fault Refusal

/-! ## Writes of one piece of state -/

/-- `V[x] <- b` (00_scope.md R9). -/
def State.setReg (s : State) (x : Reg) (b : Byte) : State := { s with v := s.v.set x.val b }

/-- All of `V[0]`..`V[15]` at once. -/
def State.setRegs (s : State) (v : Vector Byte 16) : State := { s with v := v }

/-- `I <- w`. -/
def State.setI (s : State) (w : Word) : State := { s with i := w }

/-- `PC <- w`. -/
def State.setPc (s : State) (w : Word) : State := { s with pc := w }

/-- `DT <- b`. -/
def State.setDt (s : State) (b : Byte) : State := { s with dt := b }

/-- `ST <- b`. -/
def State.setSt (s : State) (b : Byte) : State := { s with st := b }

/-- `DISP <- d`. -/
def State.setDisp (s : State) (d : Display) : State := { s with disp := d }

/-- `KEY <- k`. -/
def State.setKey (s : State) (k : BitVec 16) : State := { s with key := k }

/-- `STACK` and `SP` together (41_flow.md R160, R161). -/
def State.setStack (s : State) (stack : Vector Word 16) (sp : Fin 17) : State :=
  { s with stack := stack, sp := sp }

/-- `LOAD_LOCK <- 1` (40_engine.md R140, 70_reset_and_hazards.md R372). -/
def State.lock (s : State) : State := { s with loadLock := true }

/-! ## Memory by the byte -/

/-- `MEM[a]`, for an address the caller has checked (20_memory.md R71). -/
def State.readByte (s : State) (a : Nat) : Byte := s.mem.read s.params a

/-- `MEM[a] <- b`, for an address the caller has checked (R71). -/
def State.writeByte (s : State) (a : Nat) (b : Byte) : State :=
  { s with mem := s.mem.write s.params a b }

/-- The `n` bytes from `a` on, lowest address first. -/
def State.readBytes (s : State) (a n : Nat) : List Byte :=
  (List.range n).map fun j => s.readByte (a + j)

/-- Store bytes from `a` on, lowest address first. -/
def State.writeBytes (s : State) (a : Nat) : List Byte → State
  | [] => s
  | b :: bs => (s.writeByte a b).writeBytes (a + 1) bs

/-! ## Faults (60_exceptions.md R320 to R322) -/

/-- The 3-bit number of a fault code (R320). -/
def FaultCode.number : FaultCode → BitVec 3
  | .none => 0#3
  | .fetchError => 1#3
  | .stackOverflow => 2#3
  | .stackUnderflow => 3#3
  | .memRange => 4#3
  | .keyRange => 5#3

/-- The state after a fault (R321): `HALTED`, `FAULT_CODE` and `FAULT_ADDR` written, all else as it was. -/
def State.raise (s : State) (c : FaultCode) (a : Nat) : State :=
  { s with halted := true, faultCode := c, faultAddr := BitVec.ofNat 16 a }

/-- TAKING A FAULT (R321), the one entry of every fault. `s` is the state before the instruction wrote anything, so the
fault is precise. Control goes nowhere: PC stays, no vector, no frame. There is no return beside it: "No instruction
returns from a fault", and only RESET leaves the halt (R325; `Port.reset`). -/
def takeFault (c : FaultCode) (a : Nat) (s : State) : Result := .next (s.raise c a)

/-- R322: the lowest address of 4096 or more that an access from `base` on touches, if it touches any. -/
def faultAddress (base : Nat) : Nat := max base Config.memSize

/-- R71: whether an access to the `len` bytes from `base` on reaches an address of 4096 or more (no access, no
reach). -/
def outOfRange (base len : Nat) : Bool := 0 < len && Config.memSize ≤ base + (len - 1)

/-- R71, D7: all addresses of an instruction are checked before it writes: `MEM_RANGE`, or the instruction's own next
state. -/
def guardRange (base len : Nat) (s next : State) : Result :=
  if outOfRange base len then takeFault .memRange (faultAddress base) s else .next next

/-! ## The PC sequencer (40_engine.md R143, R144) -/

/-- `NPC = PC + 2`, the post-fetch program counter (00_scope.md R11). The sum wraps at 16 bits only where no step gets
(log 9). -/
def State.npc (s : State) : Word := s.pc + 2#16

/-- `PC <- PC + 2`. -/
def State.advance (s : State) : State := s.setPc s.npc

/-- `PC <- PC + 4` when the condition holds, else `PC <- PC + 2` (R144). -/
def State.skipIf (s : State) (c : Bool) : State := if c then s.setPc (s.pc + 4#16) else s.advance

/-! ## The call stack (41_flow.md R160, R161) -/

/-- `Push(v)`: nothing when the stack is full (R160). -/
def State.push (s : State) (w : Word) : Option State :=
  if h : s.sp.val < 16 then
    some (s.setStack (s.stack.set s.sp.val w) ⟨s.sp.val + 1, by omega⟩)
  else none

/-- `Pop()`: the top value and the state without it, nothing when the stack is empty; the slot keeps its value (R161). -/
def State.pop (s : State) : Option (Word × State) :=
  if h : 0 < s.sp.val then
    some (s.stack[s.sp.val - 1], s.setStack s.stack ⟨s.sp.val - 1, by omega⟩)
  else none

/-! ## Fetch (40_engine.md R141) and the random draw (60_exceptions.md R333) -/

/-- `Fetch(PC)`: the big-endian word at PC, nothing when `PC + 1 >= 4096`. No alignment check (20_memory.md R74). -/
def State.fetch (s : State) : Option Word :=
  if s.pc.toNat + 1 < Config.memSize then
    some (wordOfBytes (s.readByte s.pc.toNat) (s.readByte (s.pc.toNat + 1)))
  else none

/-- The fault of a fetch out of range: `FETCH_ERROR(max(PC, 4096))` (R141). -/
def takeFetchFault (s : State) : Result := takeFault .fetchError (faultAddress s.pc.toNat) s

/-- `RandomByte()`: a fresh free value, and the count of draws moved on (R333; log 1). -/
def State.drawByte (s : State) : Byte × State :=
  (Config.randomByte s.draws, { s with draws := s.draws + 1 })

end Sys2Proof.Machine
end

