-- ==== Sys2Proof/Machine/Operands.lean ====
section
/-! DEFINITION. Every operand form (30_encoding.md R103): registers, immediates, the address in I, the font glyph, the
decimal digits, the register block, the keys. No operand is sign-extended and none is scaled. -/

namespace Sys2Proof.Machine

/-- `V[x]` (00_scope.md R9). -/
def State.reg (s : State) (x : Reg) : Byte := s.v[x.val]

/-- `nnn` as a 16-bit address, zero-extended (R103). -/
def addrWord (nnn : Addr) : Word := nnn.setWidth 16

/-- A byte as a 16-bit value, zero-extended (R103). -/
def byteWord (b : Byte) : Word := b.setWidth 16

/-- The address in I, as the natural that `I + j` is formed from (20_memory.md R71). -/
def State.base (s : State) : Nat := s.i.toNat

/-- `nnn + V[0]`, the target of JP V0: not reduced, at most 0x10FE (41_flow.md R169). -/
def State.jumpTarget (s : State) (nnn : Addr) : Word := addrWord nnn + byteWord (s.reg 0)

/-- `I + V[x]` reduced as the parameter says: modulo 4096 with `i_mask_12`, else modulo 65536 (43_index_memory.md R231). -/
def State.indexSum (s : State) (b : Byte) : Word :=
  let sum := s.base + b.toNat
  BitVec.ofNat 16 (if s.params.iMask12 then sum % 4096 else sum % 65536)

/-- The address of the glyph for the low nibble of a byte: `FONT_BASE + 5 * (b & 0xF)` (R232). -/
def glyphAddress (b : Byte) : Word :=
  BitVec.ofNat 16 (Config.fontBase + Config.fontStride * (b &&& 0x0F#8).toNat)

/-- Hundreds, tens and units of a byte (R233). -/
def decimalDigits (b : Byte) : List Byte :=
  [BitVec.ofNat 8 (b.toNat / 100), BitVec.ofNat 8 (b.toNat / 10 % 10), BitVec.ofNat 8 (b.toNat % 10)]

/-- `V[0]`..`V[x]`, the bytes LD [I],Vx stores (R234). -/
def State.regBlock (s : State) (x : Reg) : List Byte := s.v.toList.take (x.val + 1)

/-- The registers after `V[j] <- MEM[I + j]` for j in 0..x (R235). -/
def State.loadedRegs (s : State) (x : Reg) : Vector Byte 16 :=
  Vector.ofFn fun j : Fin 16 => if j ≤ x then s.readByte (s.base + j.val) else s.reg j

/-- `KEY[k] = 1` (10_state.md R37). -/
def State.keyHeld (s : State) (k : Nat) : Bool := s.key.getLsbD k

/-- The lowest-numbered held key, none when no key is held (45_timers_input.md R295). -/
def State.lowestKey (s : State) : Option Nat := (List.range 16).find? s.keyHeld

end Sys2Proof.Machine
end

