-- ==== Sys2Proof/Machine/Flags.lean ====
section
/-! DEFINITION. The flag latch VF (10_state.md R31): every flag computation of the ISA, and the order of the two writes
(40_engine.md R147, 42_alu.md R191). Flags are computed from the operands before the instruction writes. -/

namespace Sys2Proof.Machine

/-- VF, `V[15]` (R31). -/
abbrev regVF : Reg := 15

/-- A flag as VF holds it: 1 or 0. -/
def flagByte (f : Bool) : Byte := if f then 1#8 else 0#8

/-- The carry of `ADD Vx,Vy`: the unwrapped sum exceeds 255 (R198). -/
def carryFlag (a b : Byte) : Bool := 255 < a.toNat + b.toNat

/-- The flag of SUB (`a > b`) and, with the operands exchanged, of SUBN: strict (R199, R201). -/
def greaterFlag (a b : Byte) : Bool := b.toNat < a.toNat

/-- The bit SHR shifts out: bit 0 (R200). -/
def shiftedOutLow (a : Byte) : Bool := a.getLsbD 0

/-- The bit SHL shifts out: bit 7 (R202). -/
def shiftedOutHigh (a : Byte) : Bool := a.getLsbD 7

/-- `WriteResultFlag(x, r, f)`: the result, then the flag, so that with x = 15 VF holds the flag (R191, R147, D4). -/
def State.writeResultFlag (s : State) (x : Reg) (r : Byte) (f : Bool) : State :=
  (s.setReg x r).setReg regVF (flagByte f)

end Sys2Proof.Machine
end

