-- ==== Sys2Proof/Machine/Alu.lean ====
section
/-! DEFINITION. Register and ALU instructions (42_alu.md R190 to R203). Byte arithmetic wraps modulo 256 (R190). -/

namespace Sys2Proof.Machine

/-- LD Vx,kk (R192). -/
def execLdVxKk (x : Reg) (kk : Byte) (s : State) : Result := .next (s.setReg x kk).advance

/-- ADD Vx,kk (R193): no flag. -/
def execAddVxKk (x : Reg) (kk : Byte) (s : State) : Result :=
  .next (s.setReg x (s.reg x + kk)).advance

/-- LD Vx,Vy (R194). -/
def execLdVxVy (x y : Reg) (s : State) : Result := .next (s.setReg x (s.reg y)).advance

/-- OR Vx,Vy (R195): VF is left alone. -/
def execOrVxVy (x y : Reg) (s : State) : Result :=
  .next (s.setReg x (s.reg x ||| s.reg y)).advance

/-- AND Vx,Vy (R196): VF is left alone. -/
def execAndVxVy (x y : Reg) (s : State) : Result :=
  .next (s.setReg x (s.reg x &&& s.reg y)).advance

/-- XOR Vx,Vy (R197): VF is left alone. -/
def execXorVxVy (x y : Reg) (s : State) : Result :=
  .next (s.setReg x (s.reg x ^^^ s.reg y)).advance

/-- ADD Vx,Vy (R198): VF is the carry. -/
def execAddVxVy (x y : Reg) (s : State) : Result :=
  let a := s.reg x
  let b := s.reg y
  .next (s.writeResultFlag x (a + b) (carryFlag a b)).advance

/-- SUB Vx,Vy (R199): VF is `a > b`, strict. -/
def execSubVxVy (x y : Reg) (s : State) : Result :=
  let a := s.reg x
  let b := s.reg y
  .next (s.writeResultFlag x (a - b) (greaterFlag a b)).advance

/-- SHR Vx (R200): VF is the bit shifted out. -/
def execShrVx (x : Reg) (s : State) : Result :=
  let a := s.reg x
  .next (s.writeResultFlag x (a >>> 1) (shiftedOutLow a)).advance

/-- SUBN Vx,Vy (R201): VF is `b > a`, strict. -/
def execSubnVxVy (x y : Reg) (s : State) : Result :=
  let a := s.reg x
  let b := s.reg y
  .next (s.writeResultFlag x (b - a) (greaterFlag b a)).advance

/-- SHL Vx (R202): VF is the bit shifted out. -/
def execShlVx (x : Reg) (s : State) : Result :=
  let a := s.reg x
  .next (s.writeResultFlag x (a <<< 1) (shiftedOutHigh a)).advance

/-- RND Vx,kk (R203): a fresh draw, masked by kk. -/
def execRndVxKk (x : Reg) (kk : Byte) (s : State) : Result :=
  let (r, t) := s.drawByte
  .next (t.setReg x (r &&& kk)).advance

end Sys2Proof.Machine
end

