-- ==== Sys2Proof/Machine/Flow.lean ====
section
/-! DEFINITION. Control flow (41_flow.md R162 to R169) and the no-op of an UNKNOWN word (40_engine.md R145). -/

namespace Sys2Proof.Machine

/-- RET (R162): the popped value is used as is. -/
def execRet (s : State) : Result :=
  match s.pop with
  | none => takeFault .stackUnderflow 0 s
  | some (w, t) => .next (t.setPc w)

/-- JP addr (R163). -/
def execJp (nnn : Addr) (s : State) : Result := .next (s.setPc (addrWord nnn))

/-- CALL addr (R164): the post-fetch address is pushed. -/
def execCall (nnn : Addr) (s : State) : Result :=
  match s.push s.npc with
  | none => takeFault .stackOverflow 0 s
  | some t => .next (t.setPc (addrWord nnn))

/-- SE Vx,kk (R165). -/
def execSeVxKk (x : Reg) (kk : Byte) (s : State) : Result := .next (s.skipIf (s.reg x = kk))

/-- SNE Vx,kk (R166). -/
def execSneVxKk (x : Reg) (kk : Byte) (s : State) : Result := .next (s.skipIf (s.reg x ≠ kk))

/-- SE Vx,Vy (R167). -/
def execSeVxVy (x y : Reg) (s : State) : Result := .next (s.skipIf (s.reg x = s.reg y))

/-- SNE Vx,Vy (R168). -/
def execSneVxVy (x y : Reg) (s : State) : Result := .next (s.skipIf (s.reg x ≠ s.reg y))

/-- JP V0,addr (R169). -/
def execJpV0Addr (nnn : Addr) (s : State) : Result := .next (s.setPc (s.jumpTarget nnn))

/-- An UNKNOWN word (R145, R106): `PC <- PC + 2`, nothing else. -/
def execUnknown (s : State) : Result := .next s.advance

end Sys2Proof.Machine
end

