-- ==== Sys2Proof/Machine/IndexMemory.lean ====
section
/-! DEFINITION. The index register and memory (43_index_memory.md R230 to R235). -/

namespace Sys2Proof.Machine

/-- LD I,addr (R230). -/
def execLdIAddr (nnn : Addr) (s : State) : Result := .next (s.setI (addrWord nnn)).advance

/-- ADD I,Vx (R231): VF is unchanged whatever the sum. -/
def execAddIVx (x : Reg) (s : State) : Result := .next (s.setI (s.indexSum (s.reg x))).advance

/-- LD F,Vx (R232). -/
def execLdFVx (x : Reg) (s : State) : Result := .next (s.setI (glyphAddress (s.reg x))).advance

/-- LD B,Vx (R233): hundreds, tens, units at I, I+1, I+2. -/
def execLdBVx (x : Reg) (s : State) : Result :=
  guardRange s.base 3 s (s.writeBytes s.base (decimalDigits (s.reg x))).advance

/-- LD [I],Vx (R234): I is unchanged. -/
def execLdMemVx (x : Reg) (s : State) : Result :=
  guardRange s.base (x.val + 1) s (s.writeBytes s.base (s.regBlock x)).advance

/-- LD Vx,[I] (R235): I is unchanged. -/
def execLdVxMem (x : Reg) (s : State) : Result :=
  guardRange s.base (x.val + 1) s (s.setRegs (s.loadedRegs x)).advance

end Sys2Proof.Machine
end

