-- ==== Sys2Proof/Machine/Screen.lean ====
section
/-! DEFINITION. The display instructions and the XOR-blit engine (44_display.md R260 to R263). -/

namespace Sys2Proof.Machine

/-- `DISP[r][c]` (R260). -/
def Display.cell (d : Display) (r : Fin 32) (c : Fin 64) : Bool := d[r.val][c.val]

/-- `DISP[r][c] <- b`. -/
def Display.setCell (d : Display) (r : Fin 32) (c : Fin 64) (b : Bool) : Display :=
  d.set r.val (d[r.val].set c.val b)

/-- The clear display (R261). -/
def Display.clear : Display := Vector.replicate 32 (Vector.replicate 64 false)

/-- The display and the collision variable `coll` of R262, as the blit carries them. -/
abbrev Blit := Display × Bool

/-- One cell of the blit (R262): XOR the sprite bit in, and record a set cell turned off. -/
def plot (r : Fin 32) (c : Fin 64) (b : Bool) (p : Blit) : Blit :=
  (Display.setCell p.1 r c (Display.cell p.1 r c ^^ b), p.2 || (b && Display.cell p.1 r c))

/-- Bit `c` of a sprite row, most significant first: `(row >> (7 - c)) & 1` (R262). -/
def spriteBit (row : Byte) (c : Nat) : Bool := row.getLsbD (7 - c)

/-- One sprite row: its 8 bits, from column `cx` of row `cy` on, each coordinate wrapping by itself (R260, R262). -/
def blitRow (cx cy : Nat) (row : Byte) (p : Blit) : Blit :=
  (List.range 8).foldl
    (fun p c => plot (Fin.ofNat 32 cy) (Fin.ofNat 64 (cx + c)) (spriteBit row c) p) p

/-- The sprite, row by row, from row `cy` on (R262). -/
def blit (cx cy : Nat) : List Byte → Blit → Blit
  | [], p => p
  | row :: rows, p => blit cx (cy + 1) rows (blitRow cx cy row p)

/-- CLS (R261): VF is unchanged. -/
def execCls (s : State) : Result := .next (s.setDisp Display.clear).advance

/-- DRW Vx,Vy,n (R262): the coordinates are read before VF is reset (D5), the whole range is checked before a cell
changes, the collision starts at 0 and VF is written last (R263). -/
def execDrwVxVyN (x y : Reg) (n : Fin 16) (s : State) : Result :=
  let drawn := blit (s.reg x).toNat (s.reg y).toNat (s.readBytes s.base n.val) (s.disp, false)
  guardRange s.base n.val s
    ((s.setDisp drawn.1).setReg regVF (flagByte drawn.2)).advance

end Sys2Proof.Machine
end

