-- ==== Sys2Proof/Machine/TimersInput.lean ====
section
/-! DEFINITION. The timer and input instructions (45_timers_input.md R290 to R295). -/

namespace Sys2Proof.Machine

/-- LD Vx,DT (R290). -/
def execLdVxDt (x : Reg) (s : State) : Result := .next (s.setReg x s.dt).advance

/-- LD DT,Vx (R291). -/
def execLdDtVx (x : Reg) (s : State) : Result := .next (s.setDt (s.reg x)).advance

/-- LD ST,Vx (R292). -/
def execLdStVx (x : Reg) (s : State) : Result := .next (s.setSt (s.reg x)).advance

/-- R293, R294, D10: a skip on key number `V[x]`, or `KEY_RANGE` when no key has that number. -/
def skipOnKey (x : Reg) (held : Bool) (s : State) : Result :=
  if 15 < (s.reg x).toNat then takeFault .keyRange 0 s
  else .next (s.skipIf (s.keyHeld (s.reg x).toNat == held))

/-- SKP Vx (R293). -/
def execSkpVx (x : Reg) (s : State) : Result := skipOnKey x true s

/-- SKNP Vx (R294). -/
def execSknpVx (x : Reg) (s : State) : Result := skipOnKey x false s

/-- LD Vx,K (R295): with no key held nothing changes, PC included; else the lowest-numbered held key. -/
def execLdVxK (x : Reg) (s : State) : Result :=
  match s.lowestKey with
  | none => .next s
  | some k => .next (s.setReg x (BitVec.ofNat 8 k)).advance

end Sys2Proof.Machine
end

