-- ==== Sys2Proof/Machine/Step.lean ====
section
/-! DEFINITION. The STEP operation (40_engine.md R140). -/

namespace Sys2Proof.Machine

/-- STEP (R140): nothing while halted; else LOAD_LOCK is set, the word at PC is fetched, decoded and executed. Its random
input `r` is the free value of a draw (log 1). -/
def step (s : State) : Host.Outcome State Fault Refusal :=
  if s.halted then .next s
  else
    match s.lock.fetch with
    | none => takeFetchFault s.lock
    | some op =>
      match decode op with
      | .instr i => exec i s.lock
      | .unknown _ => execUnknown s.lock

/-- The state with a word stored at PC, big-endian, where the next step fetches it (20_memory.md R73): this stands for the
LOAD of a program (70_reset_and_hazards.md R373; log 12). The state must be one that fetches: not halted, PC at most
4094. -/
def State.withFetchWord (s : State) (nbits w : Nat) : State :=
  let (hi, lo) := bytesOfWord (BitVec.ofNat 16 (w % 2 ^ nbits))
  s.writeBytes s.pc.toNat [hi, lo]

end Sys2Proof.Machine
end

