-- ==== Sys2Proof/WellFormed.lean ====
section
/-! DEFINITION. Well-formedness. Every term of `Instr` is well formed: each operand's type holds exactly the values its
field can hold (30_encoding.md R101, R103: "every 4-bit value names a register", R30), so no check on `Instr` is left to
make. Two inputs from outside can be ill formed: an instruction WORD whose ignored bits are not the canonical ones (R109)
and a program IMAGE that is too long (70_reset_and_hazards.md R372). -/

namespace Sys2Proof

/-- R109: among the words that spell one instruction, the canonical one has 0 in the ignored field: `5xy0` and `9xy0`
(low nibble), `8x06` and `8x0E` (`y` field). Every other word spells its instruction alone. -/
def canonicalWord (op : Word) : Bool :=
  if op &&& 0xF000#16 = 0x5000#16 ∨ op &&& 0xF000#16 = 0x9000#16 then op &&& 0x000F#16 = 0#16
  else if op &&& 0xF00F#16 = 0x8006#16 ∨ op &&& 0xF00F#16 = 0x800E#16 then op &&& 0x00F0#16 = 0#16
  else true

/-- R372: an image fits when it has at most `PROG_MAX` bytes. -/
def imageFits (bytes : List Byte) : Bool := bytes.length ≤ Config.progMax

end Sys2Proof
end

