-- ==== Sys2Proof/Machine/Port.lean ====
section
/-! DEFINITION. The host operations (60_exceptions.md R327 to R332, 70_reset_and_hazards.md R370 to R373): atomic,
serialized, each accepted in every state. They happen between steps (log 11). -/

namespace Sys2Proof.Machine

/-- RESET (R370), in every state: every piece of the spec's state at its reset value. The parameters are the machine's and
stay; the count of draws is no state of the CORE and is not taken back, so a draw after RESET is a fresh one (log 2). -/
def portReset (s : State) : State := { State.resetWith s.params with draws := s.draws }

/-- What LOAD returns to the host (R372). -/
inductive LoadResult where
  | ok
  | loadError
  deriving DecidableEq, Repr

/-- LOAD(bytes) (R372): refused, with no state changed, when LOAD_LOCK is set or the image is too long. -/
def portLoad (bytes : List Byte) (s : State) : LoadResult × State :=
  if s.loadLock then (.loadError, s)
  else if imageFits bytes then (.ok, (s.writeBytes Config.progBase bytes).lock)
  else (.loadError, s)

/-- SET_KEYS(k) (R329): the whole latch, bit j for key j. -/
def portSetKeys (k : BitVec 16) (s : State) : State := s.setKey k

/-- One countdown, saturating at 0 (R328). -/
def countDown (b : Byte) : Byte := if b = 0#8 then 0#8 else b - 1#8

/-- TICK (R328): both timers, halted or not. -/
def portTick (s : State) : State := (s.setDt (countDown s.dt)).setSt (countDown s.st)

/-- STEP (R140) as the host issues it: the next state of `step`, which always has one. -/
def portStep (s : State) : State :=
  match step s with
  | .next t => t
  | .fault _ => s
  | .refused _ => s

/-- READ_STATUS's three values (R332). -/
structure Status where
  halted : Bool
  faultCode : BitVec 3
  faultAddr : Word
  deriving DecidableEq, Repr

/-- READ_DISPLAY (R330, D28): the cells, as 32 rows of 64. -/
def readDisplay (s : State) : Display := s.disp

/-- READ_ST (R331). -/
def readSt (s : State) : Byte := s.st

/-- READ_STATUS (R332). -/
def readStatus (s : State) : Status :=
  { halted := s.halted, faultCode := s.faultCode.number, faultAddr := s.faultAddr }

/-- The host operations of R327. -/
inductive PortOp where
  | reset
  | load (bytes : List Byte)
  | setKeys (k : BitVec 16)
  | step
  | tick
  | readDisplay
  | readSt
  | readStatus
  deriving DecidableEq, Repr

/-- What an operation returns to the host (R327). -/
inductive PortResult where
  | nothing
  | loaded (r : LoadResult)
  | display (d : Display)
  | sound (b : Byte)
  | status (r : Status)
  deriving DecidableEq, Repr

/-- One host operation: the state after it and what it returns (R327). -/
def portApply (op : PortOp) (s : State) : State × PortResult :=
  match op with
  | .reset => (portReset s, .nothing)
  | .load bytes => ((portLoad bytes s).2, .loaded (portLoad bytes s).1)
  | .setKeys k => (portSetKeys k s, .nothing)
  | .step => (portStep s, .nothing)
  | .tick => (portTick s, .nothing)
  | .readDisplay => (s, .display (readDisplay s))
  | .readSt => (s, .sound (readSt s))
  | .readStatus => (s, .status (readStatus s))

/-- A sequence of host operations, in the order the host issues them (R327). -/
def portRun : List PortOp → State → State
  | [], s => s
  | op :: ops, s => portRun ops (portApply op s).1

/-- The awaiting-key condition (10_state.md R40): a function of the state, no bit of its own. -/
def awaitingKey (s : State) : Bool :=
  !s.halted && s.key == 0#16 &&
    match s.fetch.map decode with
    | some (.instr (.ldVxK _)) => true
    | _ => false

end Sys2Proof.Machine
end

