-- ==== Sys2Proof/Safety.lean ====
section
/-! DEFINITION. The terms that claims about the machine use: the invariant of its states, which fault an instruction
raises and when (60_exceptions.md R320), where PC goes (40_engine.md R143), which instructions write what
(10_state.md R31 to R36), and what it is for two states to agree but for some pieces. -/

namespace Sys2Proof.Machine

/-- The CORE is not halted. A safe run is one whose states are all live: no step of it raised a fault (R321). -/
abbrev State.Live (s : State) : Prop := s.halted = false

/-- What every state that host operations reach satisfies. -/
structure State.Inv (s : State) : Prop where
  /-- Memory is in canonical form (log 13). -/
  memory : s.mem.wf s.params
  /-- R32: "The largest value an instruction can write is `0xFFF + 0xFF = 0x10FE`". -/
  pc : s.pc.toNat ≤ 0x10FE
  /-- R162: a slot in use holds an NPC that CALL pushed, in 2..4096. -/
  stack : ∀ j : Fin 16, j.val < s.sp.val → 2 ≤ s.stack[j.val].toNat ∧ s.stack[j.val].toNat ≤ 4096
  /-- R231: with `i_mask_12`, I keeps 12 bits. -/
  index : s.params.iMask12 = true → s.i.toNat < 4096
  /-- R39: HALTED is set exactly when a fault code is recorded. -/
  halted : s.halted = true ↔ s.faultCode ≠ .none
  /-- R322: a range fault records an address of 4096 or more, anything else 0. -/
  faultAddr :
    if s.faultCode = .fetchError ∨ s.faultCode = .memRange then 4096 ≤ s.faultAddr.toNat else s.faultAddr = 0
  /-- R140: only a STEP halts, and every STEP sets LOAD_LOCK. -/
  lock : s.halted = true → s.loadLock = true

/-- R320: the fault that an instruction raises in a state, and its address; none where it completes. -/
def raises : Instr → State → Option (FaultCode × Nat)
  | .ret, s => if s.sp.val = 0 then some (.stackUnderflow, 0) else none
  | .call _, s => if s.sp.val = 16 then some (.stackOverflow, 0) else none
  | .drwVxVyN _ _ n, s =>
    if 0 < n.val ∧ 4096 ≤ s.i.toNat + n.val - 1 then some (.memRange, max s.i.toNat 4096) else none
  | .ldBVx _, s => if 4096 ≤ s.i.toNat + 2 then some (.memRange, max s.i.toNat 4096) else none
  | .ldMemVx x, s => if 4096 ≤ s.i.toNat + x.val then some (.memRange, max s.i.toNat 4096) else none
  | .ldVxMem x, s => if 4096 ≤ s.i.toNat + x.val then some (.memRange, max s.i.toNat 4096) else none
  | .skpVx x, s => if 15 < s.v[x.val].toNat then some (.keyRange, 0) else none
  | .sknpVx x, s => if 15 < s.v[x.val].toNat then some (.keyRange, 0) else none
  | .cls, _ | .jp _, _ | .seVxKk _ _, _ | .sneVxKk _ _, _ | .seVxVy _ _, _ | .ldVxKk _ _, _ | .addVxKk _ _, _
  | .ldVxVy _ _, _ | .orVxVy _ _, _ | .andVxVy _ _, _ | .xorVxVy _ _, _ | .addVxVy _ _, _ | .subVxVy _ _, _
  | .shrVx _, _ | .subnVxVy _ _, _ | .shlVx _, _ | .sneVxVy _ _, _ | .ldIAddr _, _ | .jpV0Addr _, _
  | .rndVxKk _ _, _ | .ldVxDt _, _ | .ldVxK _, _ | .ldDtVx _, _ | .ldStVx _, _ | .addIVx _, _ | .ldFVx _, _ => none

/-- R143: where PC goes when an instruction completes, as a natural: redirect, skip, hold, or advance. -/
def pcAfter : Instr → State → Nat
  | .jp nnn, _ => nnn.toNat
  | .call nnn, _ => nnn.toNat
  | .ret, s => (s.stack.toList.getD (s.sp.val - 1) 0).toNat
  | .jpV0Addr nnn, s => nnn.toNat + s.v[0].toNat
  | .seVxKk x kk, s => if s.v[x.val] = kk then s.pc.toNat + 4 else s.pc.toNat + 2
  | .sneVxKk x kk, s => if s.v[x.val] = kk then s.pc.toNat + 2 else s.pc.toNat + 4
  | .seVxVy x y, s => if s.v[x.val] = s.v[y.val] then s.pc.toNat + 4 else s.pc.toNat + 2
  | .sneVxVy x y, s => if s.v[x.val] = s.v[y.val] then s.pc.toNat + 2 else s.pc.toNat + 4
  | .skpVx x, s => if s.key.getLsbD s.v[x.val].toNat then s.pc.toNat + 4 else s.pc.toNat + 2
  | .sknpVx x, s => if s.key.getLsbD s.v[x.val].toNat then s.pc.toNat + 2 else s.pc.toNat + 4
  | .ldVxK _, s => if s.key = 0 then s.pc.toNat else s.pc.toNat + 2
  | .cls, s | .ldVxKk _ _, s | .addVxKk _ _, s | .ldVxVy _ _, s | .orVxVy _ _, s | .andVxVy _ _, s | .xorVxVy _ _, s
  | .addVxVy _ _, s | .subVxVy _ _, s | .shrVx _, s | .subnVxVy _ _, s | .shlVx _, s | .ldIAddr _, s
  | .rndVxKk _ _, s | .drwVxVyN _ _ _, s | .ldVxDt _, s | .ldDtVx _, s | .ldStVx _, s | .addIVx _, s | .ldFVx _, s
  | .ldBVx _, s | .ldMemVx _, s | .ldVxMem _, s => s.pc.toNat + 2

/-- R31's list: the instructions that write VF as a flag. -/
def writesFlag : Instr → Bool
  | .addVxVy _ _ | .subVxVy _ _ | .shrVx _ | .subnVxVy _ _ | .shlVx _ | .drwVxVyN _ _ _ => true
  | .cls | .ret | .jp _ | .call _ | .seVxKk _ _ | .sneVxKk _ _ | .seVxVy _ _ | .ldVxKk _ _ | .addVxKk _ _
  | .ldVxVy _ _ | .orVxVy _ _ | .andVxVy _ _ | .xorVxVy _ _ | .sneVxVy _ _ | .ldIAddr _ | .jpV0Addr _
  | .rndVxKk _ _ | .skpVx _ | .sknpVx _ | .ldVxDt _ | .ldVxK _ | .ldDtVx _ | .ldStVx _ | .addIVx _ | .ldFVx _
  | .ldBVx _ | .ldMemVx _ | .ldVxMem _ => false

/-- The registers an instruction names as its destination (files 41 to 45): `V[x]`, or `V[0]`..`V[x]` for LD Vx,[I]. VF
as a flag is `writesFlag`. -/
def destination : Instr → Reg → Bool
  | .ldVxKk x _, j | .addVxKk x _, j | .ldVxVy x _, j | .orVxVy x _, j | .andVxVy x _, j | .xorVxVy x _, j
  | .addVxVy x _, j | .subVxVy x _, j | .shrVx x, j | .subnVxVy x _, j | .shlVx x, j | .rndVxKk x _, j
  | .ldVxDt x, j | .ldVxK x, j => j == x
  | .ldVxMem x, j => j.val ≤ x.val
  | .cls, _ | .ret, _ | .jp _, _ | .call _, _ | .seVxKk _ _, _ | .sneVxKk _ _, _ | .seVxVy _ _, _ | .sneVxVy _ _, _
  | .ldIAddr _, _ | .jpV0Addr _, _ | .drwVxVyN _ _ _, _ | .skpVx _, _ | .sknpVx _, _ | .ldDtVx _, _ | .ldStVx _, _
  | .addIVx _, _ | .ldFVx _, _ | .ldBVx _, _ | .ldMemVx _, _ => false

/-- Two states agree on everything but V and PC; memory also through the read of one byte. -/
def SameButRegsPc (s t : State) : Prop :=
  t = { s with v := t.v, pc := t.pc } ∧ ∀ a, t.readByte a = s.readByte a

/-- Two states agree on everything but PC; memory also through the read of one byte. -/
def SameButPc (s t : State) : Prop :=
  t = { s with pc := t.pc } ∧ ∀ a, t.readByte a = s.readByte a

/-- Every general register but `V[x]` is as before. -/
def OtherRegsKept (x : Reg) (s t : State) : Prop := ∀ j : Reg, j ≠ x → t.v[j.val] = s.v[j.val]

/-- Every general register but `V[x]` and VF is as before. -/
def OtherRegsKeptButVF (x : Reg) (s t : State) : Prop :=
  ∀ j : Reg, j ≠ x → j ≠ 15 → t.v[j.val] = s.v[j.val]

/-- R262: the cell at row r and column c lies under a set bit of the sprite that DRW Vx,Vy,n draws: row k of the sprite
falls on display row `(Vy + k) mod 32`, its bit b (most significant first) on column `(Vx + b) mod 64`. -/
def SpriteCovers (s : State) (x y : Reg) (n : Fin 16) (r : Fin 32) (c : Fin 64) : Prop :=
  ∃ k < n.val, ∃ b < 8,
    r.val = (s.v[y.val].toNat + k) % 32 ∧ c.val = (s.v[x.val].toNat + b) % 64 ∧
      (s.readByte (s.base + k)).getLsbD (7 - b) = true

end Sys2Proof.Machine
end

