-- ==== Sys2Proof/Certificates/Slice0/Obligations.lean ====
section
/-! DEFINITION. The statements for the provers: the numbered rules of spec/, about the machine and every state of it. -/

open Sys2Proof Sys2Proof.Machine

/-! ## Encoding (30_encoding.md) -/

/-- R104, R105: decode and encode agree on every instruction, with every operand at every value. -/
def Obligations.DecodeEncodeGivesBackEveryInstruction : Prop :=
  ∀ i : Instr, decode (encode i) = .instr i

/-- R109: re-encoding what a word decodes to gives the word back exactly when the word is canonical; the decoder accepts
every variant. -/
def Obligations.ReencodingIsIdentityExactlyOnCanonicalWords : Prop :=
  (∀ (w : Word) (i : Instr), decode w = .instr i → (encode i = w ↔ canonicalWord w = true)) ∧
  (∀ (x y : Reg) (s : BitVec 4), decode (encodeXY 0x5#4 x y s) = .instr (.seVxVy x y)) ∧
  (∀ (x y : Reg) (s : BitVec 4), decode (encodeXY 0x9#4 x y s) = .instr (.sneVxVy x y)) ∧
  (∀ x y : Reg, decode (encodeXY 0x8#4 x y 0x6#4) = .instr (.shrVx x)) ∧
  (∀ x y : Reg, decode (encodeXY 0x8#4 x y 0xE#4) = .instr (.shlVx x))

/-- R105, R104: the opcode map selects exactly one row, that of the decoded instruction, or none, for UNKNOWN. That
exactly one row or UNKNOWN matches is an inference that R105 marks as its own, from R104. -/
def Obligations.EveryWordIsSelectedByExactlyItsRow : Prop :=
  opcodeRows.length = 34 ∧
  ∀ w : Word,
    match decode w with
    | .instr i => opcodeRows.filter (selects w) = [rowOf i]
    | .unknown _ => opcodeRows.filter (selects w) = []

/-- R106: the UNKNOWN space is exactly the four ranges. -/
def Obligations.UnknownWordsAreExactlyTheFourRanges : Prop :=
  ∀ w : Word, decode w = .unknown w ↔
    (w.toNat / 4096 = 0 ∧ w.toNat ≠ 0x00E0 ∧ w.toNat ≠ 0x00EE) ∨
    (w.toNat / 4096 = 8 ∧ w.toNat % 16 ∈ [0x8, 0x9, 0xA, 0xB, 0xC, 0xD, 0xF]) ∨
    (w.toNat / 4096 = 14 ∧ w.toNat % 256 ∉ [0x9E, 0xA1]) ∨
    (w.toNat / 4096 = 15 ∧ w.toNat % 256 ∉ [0x07, 0x0A, 0x15, 0x18, 0x1E, 0x29, 0x33, 0x55, 0x65])

/-- R101: where each field stands in a word, and how a word stands in two bytes (R73). -/
def Obligations.FieldsAreTheStatedBitsOfAWord : Prop :=
  (∀ w : Word,
    (familyField w).toNat = w.toNat / 4096 ∧ (xField w).val = w.toNat / 256 % 16 ∧
    (yField w).val = w.toNat / 16 % 16 ∧ (nField w).val = w.toNat % 16 ∧
    (kkField w).toNat = w.toNat % 256 ∧ (nnnField w).toNat = w.toNat % 4096) ∧
  (∀ hi lo : Byte, (wordOfBytes hi lo).toNat = hi.toNat * 256 + lo.toNat)

/-- R104, R105: words written out from the table decode to their instructions, one or more of each of the 16 families
(`op[15:12]`, R101). -/
def Obligations.WordsOfTheTableDecode : Prop :=
  decode 0x00E0#16 = .instr .cls ∧ decode 0x00EE#16 = .instr .ret ∧ decode 0x01E0#16 = .unknown 0x01E0#16 ∧
  decode 0x1ABC#16 = .instr (.jp 0xABC#12) ∧ decode 0x2400#16 = .instr (.call 0x400#12) ∧
  decode 0x3012#16 = .instr (.seVxKk 0 0x12#8) ∧ decode 0x4013#16 = .instr (.sneVxKk 0 0x13#8) ∧
  decode 0x912F#16 = .instr (.sneVxVy 1 2) ∧ decode 0xA123#16 = .instr (.ldIAddr 0x123#12) ∧
  decode 0xC00F#16 = .instr (.rndVxKk 0 0x0F#8) ∧
  decode 0x6005#16 = .instr (.ldVxKk 0 0x05#8) ∧ decode 0x7003#16 = .instr (.addVxKk 0 0x03#8) ∧
  decode 0x8AB4#16 = .instr (.addVxVy 10 11) ∧ decode 0x8AB6#16 = .instr (.shrVx 10) ∧
  decode 0x8AB8#16 = .unknown 0x8AB8#16 ∧ decode 0x5121#16 = .instr (.seVxVy 1 2) ∧
  decode 0xBABC#16 = .instr (.jpV0Addr 0xABC#12) ∧ decode 0xD12F#16 = .instr (.drwVxVyN 1 2 15) ∧
  decode 0xE19E#16 = .instr (.skpVx 1) ∧ decode 0xF00A#16 = .instr (.ldVxK 0) ∧
  decode 0xFF65#16 = .instr (.ldVxMem 15) ∧ decode 0xF0FF#16 = .unknown 0xF0FF#16

/-! ## The step (40_engine.md) -/

/-- R140, R141, R145: a halted CORE does nothing; else LOAD_LOCK is set, and a PC beyond 4094 faults, an UNKNOWN word
advances PC by 2, and the bytes of an instruction run that instruction. -/
def Obligations.StepRunsTheDecodedInstruction : Prop :=
  (∀ s : State, s.halted = true → step s = .next s) ∧
  (∀ s : State, s.halted = false → 4096 ≤ s.pc.toNat + 1 →
    step s = .next { s with
      loadLock := true, halted := true, faultCode := .fetchError,
      faultAddr := BitVec.ofNat 16 (max s.pc.toNat 4096) }) ∧
  (∀ (s : State) (i : Instr), s.halted = false → s.pc.toNat + 1 < 4096 →
    decode (wordOfBytes (s.readByte s.pc.toNat) (s.readByte (s.pc.toNat + 1))) = .instr i →
    step s = exec i { s with loadLock := true }) ∧
  (∀ (s : State) (w : Word), s.halted = false → s.pc.toNat + 1 < 4096 →
    decode (wordOfBytes (s.readByte s.pc.toNat) (s.readByte (s.pc.toNat + 1))) = .unknown w →
    step s = .next { s with loadLock := true, pc := s.pc + 2 }) ∧
  (∀ hi lo : Byte, (wordOfBytes hi lo).toNat = hi.toNat * 256 + lo.toNat)

/-- Executing and stepping always answer a next state: nothing is refused, and every fault is taken. That a fault is
answered as a next state, and never as the outcome `fault`, is the model's form of R321 (log 7, DEDUCED); that every
instruction otherwise completes in its step is R140 and R142. -/
def Obligations.EveryStepAnswersANextState : Prop :=
  (∀ (i : Instr) (s : State), ∃ t, exec i s = .next t) ∧ (∀ s : State, ∃ t, step s = .next t)

/-- R143: an instruction that does not fault writes PC in one of the four ways, by its class; UNKNOWN advances; a faulting
instruction leaves PC at its own address. -/
def Obligations.PcMovesByTheClassOfTheInstruction : Prop :=
  (∀ (i : Instr) (s : State), raises i s = none → s.pc.toNat ≤ 4094 →
    ∃ t, exec i s = .next t ∧ t.pc.toNat = pcAfter i s) ∧
  (∀ s : State, s.pc.toNat ≤ 4094 → ∃ t, execUnknown s = .next t ∧ t.pc.toNat = s.pc.toNat + 2) ∧
  (∀ (i : Instr) (s : State), raises i s ≠ none → ∃ t, exec i s = .next t ∧ t.pc = s.pc)

/-! ## Control flow (41_flow.md) -/

/-- R163, R169: the two jumps write PC and nothing else; `nnn + V[0]` is not reduced. -/
def Obligations.JumpsWriteOnlyPc : Prop :=
  (∀ (nnn : Addr) (s : State), ∃ t, exec (.jp nnn) s = .next t ∧ t.pc.toNat = nnn.toNat ∧ SameButPc s t) ∧
  (∀ (nnn : Addr) (s : State), ∃ t, exec (.jpV0Addr nnn) s = .next t ∧
    t.pc.toNat = nnn.toNat + s.v[0].toNat ∧ SameButPc s t)

/-- R164, R160: CALL pushes the post-fetch address and jumps; on a full stack it faults and writes nothing else. -/
def Obligations.CallPushesOrOverflows : Prop :=
  (∀ (nnn : Addr) (s : State) (h : s.sp.val < 16), ∃ t, exec (.call nnn) s = .next t ∧
    t.sp.val = s.sp.val + 1 ∧ t.stack[s.sp.val] = s.pc + 2 ∧ t.pc.toNat = nnn.toNat ∧
    (∀ j : Fin 16, j.val ≠ s.sp.val → t.stack[j.val] = s.stack[j.val]) ∧
    t = { s with stack := t.stack, sp := t.sp, pc := t.pc } ∧ ∀ a, t.readByte a = s.readByte a) ∧
  (∀ (nnn : Addr) (s : State), s.sp.val = 16 →
    exec (.call nnn) s = .next { s with halted := true, faultCode := .stackOverflow, faultAddr := 0 })

/-- R162, R161: RET pops the top slot into PC as it is, and the slot keeps its value; on an empty stack it faults. -/
def Obligations.RetPopsOrUnderflows : Prop :=
  (∀ (s : State) (h : 0 < s.sp.val), ∃ t, exec .ret s = .next t ∧
    t.sp.val = s.sp.val - 1 ∧ t.pc = s.stack[s.sp.val - 1] ∧
    t = { s with sp := t.sp, pc := t.pc } ∧ ∀ a, t.readByte a = s.readByte a) ∧
  (∀ s : State, s.sp.val = 0 →
    exec .ret s = .next { s with halted := true, faultCode := .stackUnderflow, faultAddr := 0 })

/-- R162, R164: a CALL and then a RET resume after the CALL, with the depth and every slot in use as before. -/
def Obligations.CallThenRetResumesAfterTheCall : Prop :=
  ∀ (nnn : Addr) (s : State), s.sp.val < 16 →
    ∃ t u, exec (.call nnn) s = .next t ∧ exec .ret t = .next u ∧
      u = { s with pc := s.pc + 2, stack := u.stack } ∧
      ∀ j : Fin 16, j.val < s.sp.val → u.stack[j.val] = s.stack[j.val]

/-- R165 to R168: the four skips on registers and immediates. -/
def Obligations.RegisterSkipsCompareAndSkip : Prop :=
  ∀ (x y : Reg) (kk : Byte) (s : State),
    (∃ t, exec (.seVxKk x kk) s = .next t ∧
      t.pc = (if s.v[x.val] = kk then s.pc + 4 else s.pc + 2) ∧ SameButPc s t) ∧
    (∃ t, exec (.sneVxKk x kk) s = .next t ∧
      t.pc = (if s.v[x.val] ≠ kk then s.pc + 4 else s.pc + 2) ∧ SameButPc s t) ∧
    (∃ t, exec (.seVxVy x y) s = .next t ∧
      t.pc = (if s.v[x.val] = s.v[y.val] then s.pc + 4 else s.pc + 2) ∧ SameButPc s t) ∧
    (∃ t, exec (.sneVxVy x y) s = .next t ∧
      t.pc = (if s.v[x.val] ≠ s.v[y.val] then s.pc + 4 else s.pc + 2) ∧ SameButPc s t)

/-! ## Registers and ALU (42_alu.md) -/

/-- R192, R194 to R197: the loads and the logical operations write V[x] alone and leave VF alone. -/
def Obligations.LoadsAndLogicWriteOnlyTheirRegister : Prop :=
  ∀ (x y : Reg) (kk : Byte) (s : State),
    (∃ t, exec (.ldVxKk x kk) s = .next t ∧ t.v[x.val] = kk ∧
      OtherRegsKept x s t ∧ t.pc = s.pc + 2 ∧ SameButRegsPc s t) ∧
    (∃ t, exec (.ldVxVy x y) s = .next t ∧ t.v[x.val] = s.v[y.val] ∧
      OtherRegsKept x s t ∧ t.pc = s.pc + 2 ∧ SameButRegsPc s t) ∧
    (∃ t, exec (.orVxVy x y) s = .next t ∧ t.v[x.val] = s.v[x.val] ||| s.v[y.val] ∧
      OtherRegsKept x s t ∧ t.pc = s.pc + 2 ∧ SameButRegsPc s t) ∧
    (∃ t, exec (.andVxVy x y) s = .next t ∧ t.v[x.val] = s.v[x.val] &&& s.v[y.val] ∧
      OtherRegsKept x s t ∧ t.pc = s.pc + 2 ∧ SameButRegsPc s t) ∧
    (∃ t, exec (.xorVxVy x y) s = .next t ∧ t.v[x.val] = s.v[x.val] ^^^ s.v[y.val] ∧
      OtherRegsKept x s t ∧ t.pc = s.pc + 2 ∧ SameButRegsPc s t)

/-- R193: ADD Vx,kk wraps and sets no flag. -/
def Obligations.AddImmediateWrapsWithoutFlag : Prop :=
  ∀ (x : Reg) (kk : Byte) (s : State), ∃ t, exec (.addVxKk x kk) s = .next t ∧
    t.v[x.val].toNat = (s.v[x.val].toNat + kk.toNat) % 256 ∧
    OtherRegsKept x s t ∧ t.pc = s.pc + 2 ∧ SameButRegsPc s t

/-- R198: ADD Vx,Vy wraps and VF is the carry; with x = F, VF is the carry. -/
def Obligations.AddRegistersWrapsAndSetsCarry : Prop :=
  ∀ (x y : Reg) (s : State), ∃ t, exec (.addVxVy x y) s = .next t ∧
    (x ≠ 15 → t.v[x.val].toNat = (s.v[x.val].toNat + s.v[y.val].toNat) % 256) ∧
    t.v[15] = (if 255 < s.v[x.val].toNat + s.v[y.val].toNat then 1 else 0) ∧
    OtherRegsKeptButVF x s t ∧ t.pc = s.pc + 2 ∧ SameButRegsPc s t

/-- R199: SUB wraps and VF is `Vx > Vy`, strict; with x = F, VF is the flag. -/
def Obligations.SubWrapsAndSetsStrictGreater : Prop :=
  ∀ (x y : Reg) (s : State), ∃ t, exec (.subVxVy x y) s = .next t ∧
    (x ≠ 15 → t.v[x.val].toNat = (s.v[x.val].toNat + 256 - s.v[y.val].toNat) % 256) ∧
    t.v[15] = (if s.v[y.val].toNat < s.v[x.val].toNat then 1 else 0) ∧
    OtherRegsKeptButVF x s t ∧ t.pc = s.pc + 2 ∧ SameButRegsPc s t

/-- R201: SUBN wraps and VF is `Vy > Vx`, strict; with x = F, VF is the flag. -/
def Obligations.SubnWrapsAndSetsStrictGreater : Prop :=
  ∀ (x y : Reg) (s : State), ∃ t, exec (.subnVxVy x y) s = .next t ∧
    (x ≠ 15 → t.v[x.val].toNat = (s.v[y.val].toNat + 256 - s.v[x.val].toNat) % 256) ∧
    t.v[15] = (if s.v[x.val].toNat < s.v[y.val].toNat then 1 else 0) ∧
    OtherRegsKeptButVF x s t ∧ t.pc = s.pc + 2 ∧ SameButRegsPc s t

/-- R200, R202: the shifts move Vx by one bit and VF is the bit shifted out, read before the shift. -/
def Obligations.ShiftsMoveOneBitAndKeepTheBitShiftedOut : Prop :=
  ∀ (x : Reg) (s : State),
    (∃ t, exec (.shrVx x) s = .next t ∧
      (x ≠ 15 → t.v[x.val].toNat = s.v[x.val].toNat / 2) ∧
      t.v[15].toNat = s.v[x.val].toNat % 2 ∧
      OtherRegsKeptButVF x s t ∧ t.pc = s.pc + 2 ∧ SameButRegsPc s t) ∧
    (∃ t, exec (.shlVx x) s = .next t ∧
      (x ≠ 15 → t.v[x.val].toNat = s.v[x.val].toNat * 2 % 256) ∧
      t.v[15].toNat = s.v[x.val].toNat / 128 ∧
      OtherRegsKeptButVF x s t ∧ t.pc = s.pc + 2 ∧ SameButRegsPc s t)

/-- R203, R333: RND masks a fresh draw, whatever it is, by kk; the draw is the free value of log 1, and each RND moves on
to the next one. -/
def Obligations.RndMasksAFreshDraw : Prop :=
  ∀ (x : Reg) (kk : Byte) (s : State), ∃ t, exec (.rndVxKk x kk) s = .next t ∧
    t.v[x.val] = Config.randomByte s.draws &&& kk ∧ t.draws = s.draws + 1 ∧
    OtherRegsKept x s t ∧ t.pc = s.pc + 2 ∧
    t = { s with v := t.v, pc := t.pc, draws := t.draws } ∧ ∀ a, t.readByte a = s.readByte a

/-- R31: a register that is no destination of an instruction keeps its value, and VF too unless the instruction is one of
the six that write it as a flag. -/
def Obligations.OnlyDestinationsAndTheFlagLatchChange : Prop :=
  ∀ (i : Instr) (s t : State) (j : Reg), exec i s = .next t → destination i j = false →
    (j = 15 → writesFlag i = false) → t.v[j.val] = s.v[j.val]

/-! ## Index register and memory (43_index_memory.md) -/

/-- R230, R232: LD I and LD F write I: the address, and the glyph address of the low nibble of Vx. -/
def Obligations.LoadsOfTheIndexRegister : Prop :=
  (∀ (nnn : Addr) (s : State), ∃ t, exec (.ldIAddr nnn) s = .next t ∧ t.i.toNat = nnn.toNat ∧
    t = { s with i := t.i, pc := s.pc + 2 } ∧ ∀ a, t.readByte a = s.readByte a) ∧
  (∀ (x : Reg) (s : State), ∃ t, exec (.ldFVx x) s = .next t ∧ t.i.toNat = 5 * (s.v[x.val].toNat % 16) ∧
    t = { s with i := t.i, pc := s.pc + 2 } ∧ ∀ a, t.readByte a = s.readByte a)

/-- R231: ADD I,Vx reduces the sum modulo 2^16, or modulo 4096 with `i_mask_12`; no flag. -/
def Obligations.AddIndexReducesAsTheParameterSays : Prop :=
  ∀ (x : Reg) (s : State), ∃ t, exec (.addIVx x) s = .next t ∧
    t.i.toNat = (s.i.toNat + s.v[x.val].toNat) % (if s.params.iMask12 = true then 4096 else 65536) ∧
    t = { s with i := t.i, pc := s.pc + 2 } ∧ ∀ a, t.readByte a = s.readByte a

/-- R233: LD B stores the three decimal digits at I, I+1, I+2, or faults with nothing written. -/
def Obligations.BcdStoresThreeDigitsOrFaults : Prop :=
  (∀ (x : Reg) (s : State), s.i.toNat + 2 < 4096 → ∃ t, exec (.ldBVx x) s = .next t ∧
    (s.mem.wf s.params →
      (t.readByte s.base).toNat = s.v[x.val].toNat / 100 ∧
      (t.readByte (s.base + 1)).toNat = s.v[x.val].toNat / 10 % 10 ∧
      (t.readByte (s.base + 2)).toNat = s.v[x.val].toNat % 10) ∧
    (∀ a, a < s.base ∨ s.base + 3 ≤ a → t.readByte a = s.readByte a) ∧
    t = { s with mem := t.mem, pc := s.pc + 2 }) ∧
  (∀ (x : Reg) (s : State), 4096 ≤ s.i.toNat + 2 →
    exec (.ldBVx x) s = .next { s with
      halted := true, faultCode := .memRange, faultAddr := BitVec.ofNat 16 (max s.i.toNat 4096) })

/-- R234: LD [I],Vx stores V0..Vx at I..I+x and leaves I alone, or faults with nothing written. -/
def Obligations.BlockStoreStoresV0ToVxOrFaults : Prop :=
  (∀ (x : Reg) (s : State), s.i.toNat + x.val < 4096 → ∃ t, exec (.ldMemVx x) s = .next t ∧
    (s.mem.wf s.params → ∀ j : Reg, j ≤ x → t.readByte (s.base + j.val) = s.v[j.val]) ∧
    (∀ a, a < s.base ∨ s.base + x.val < a → t.readByte a = s.readByte a) ∧
    t = { s with mem := t.mem, pc := s.pc + 2 }) ∧
  (∀ (x : Reg) (s : State), 4096 ≤ s.i.toNat + x.val →
    exec (.ldMemVx x) s = .next { s with
      halted := true, faultCode := .memRange, faultAddr := BitVec.ofNat 16 (max s.i.toNat 4096) })

/-- R235: LD Vx,[I] loads V0..Vx from I..I+x and leaves I alone, or faults with no register written. -/
def Obligations.BlockLoadLoadsV0ToVxOrFaults : Prop :=
  (∀ (x : Reg) (s : State), s.i.toNat + x.val < 4096 → ∃ t, exec (.ldVxMem x) s = .next t ∧
    (∀ j : Reg, j ≤ x → t.v[j.val] = s.readByte (s.i.toNat + j.val)) ∧
    (∀ j : Reg, x < j → t.v[j.val] = s.v[j.val]) ∧ t.pc = s.pc + 2 ∧ SameButRegsPc s t) ∧
  (∀ (x : Reg) (s : State), 4096 ≤ s.i.toNat + x.val →
    exec (.ldVxMem x) s = .next { s with
      halted := true, faultCode := .memRange, faultAddr := BitVec.ofNat 16 (max s.i.toNat 4096) })

/-- R234, R235: V0..Vx stored and, whatever the registers hold by then, loaded back from the same I are what they were. -/
def Obligations.BlockStoreThenBlockLoadRestoresRegisters : Prop :=
  ∀ (x : Reg) (s : State) (v : Vector Byte 16), s.mem.wf s.params → s.i.toNat + x.val < 4096 →
    ∃ t u, exec (.ldMemVx x) s = .next t ∧ exec (.ldVxMem x) { t with v := v } = .next u ∧
      (∀ j : Reg, j ≤ x → u.v[j.val] = s.v[j.val]) ∧ (∀ j : Reg, x < j → u.v[j.val] = v[j.val]) ∧ u.i = s.i

/-- R78: the word that the next fetch reads is the one just stored, where LD [I],Vx stores over the word at the new PC. -/
def Obligations.StoredBytesAreFetchedNext : Prop :=
  ∀ (x j k : Reg) (s : State), s.mem.wf s.params → s.i.toNat + x.val < 4096 →
    j ≤ x → k ≤ x → s.i.toNat + j.val = s.pc.toNat + 2 → s.i.toNat + k.val = s.pc.toNat + 3 →
    ∃ t, exec (.ldMemVx x) s = .next t ∧ t.fetch = some (wordOfBytes s.v[j.val] s.v[k.val])

/-! ## Display (44_display.md) -/

/-- R261: CLS clears every cell and nothing else. -/
def Obligations.ClsClearsEveryCell : Prop :=
  ∀ s : State, ∃ t, exec .cls s = .next t ∧ (∀ r c, Display.cell t.disp r c = false) ∧
    t = { s with disp := t.disp, pc := s.pc + 2 } ∧ ∀ a, t.readByte a = s.readByte a

/-- R262, in a form without the loop, which rests on its inference (marked as derived there) that no cell is covered twice.
The blit, cell by cell: a cell flips exactly when a set bit of the sprite covers it, and VF is 1 exactly when
some covered cell was set; a sprite of height 0 touches nothing and sets VF to 0. A sprite that reaches beyond memory
faults before a cell changes, VF unchanged. -/
def Obligations.DrwFlipsExactlyTheCoveredCellsOrFaults : Prop :=
  (∀ (x y : Reg) (n : Fin 16) (s : State), (n.val = 0 ∨ s.i.toNat + n.val ≤ 4096) →
    ∃ t, exec (.drwVxVyN x y n) s = .next t ∧
      (∀ r c, Display.cell t.disp r c ≠ Display.cell s.disp r c ↔ SpriteCovers s x y n r c) ∧
      ((∃ r c, Display.cell s.disp r c = true ∧ SpriteCovers s x y n r c) → t.v[15] = 1) ∧
      (¬ (∃ r c, Display.cell s.disp r c = true ∧ SpriteCovers s x y n r c) → t.v[15] = 0) ∧
      OtherRegsKept 15 s t ∧
      t = { s with disp := t.disp, v := t.v, pc := s.pc + 2 } ∧ ∀ a, t.readByte a = s.readByte a) ∧
  (∀ (x y : Reg) (n : Fin 16) (s : State), 0 < n.val → 4096 ≤ s.i.toNat + n.val - 1 →
    exec (.drwVxVyN x y n) s = .next { s with
      halted := true, faultCode := .memRange, faultAddr := BitVec.ofNat 16 (max s.i.toNat 4096) })

/-- R263: a sprite drawn twice at the same coordinates leaves the display as it was; on a clear display, a non-zero one
ends with VF = 1. -/
def Obligations.DrawingTwiceRestoresTheDisplay : Prop :=
  ∀ (x y : Reg) (n : Fin 16) (s : State), x ≠ 15 → y ≠ 15 → (n.val = 0 ∨ s.i.toNat + n.val ≤ 4096) →
    ∃ t u, exec (.drwVxVyN x y n) s = .next t ∧ exec (.drwVxVyN x y n) t = .next u ∧ u.disp = s.disp ∧
      ((∀ r c, Display.cell s.disp r c = false) → (∃ k < n.val, s.readByte (s.i.toNat + k) ≠ 0) → u.v[15] = 1)

/-! ## Timers and input (45_timers_input.md) -/

/-- R290 to R292: the three timer instructions. -/
def Obligations.TimerInstructionsCopyTheirRegister : Prop :=
  ∀ (x : Reg) (s : State),
    (∃ t, exec (.ldVxDt x) s = .next t ∧ t.v[x.val] = s.dt ∧
      OtherRegsKept x s t ∧ t.pc = s.pc + 2 ∧ SameButRegsPc s t) ∧
    (∃ t, exec (.ldDtVx x) s = .next t ∧
      t = { s with dt := s.v[x.val], pc := s.pc + 2 } ∧ ∀ a, t.readByte a = s.readByte a) ∧
    (∃ t, exec (.ldStVx x) s = .next t ∧
      t = { s with st := s.v[x.val], pc := s.pc + 2 } ∧ ∀ a, t.readByte a = s.readByte a)

/-- R293, R294: SKP and SKNP follow the latch for a key number 0..15, and fault for a larger one. -/
def Obligations.KeySkipsFollowTheLatchOrFault : Prop :=
  (∀ (x : Reg) (s : State), s.v[x.val].toNat ≤ 15 →
    (∃ t, exec (.skpVx x) s = .next t ∧
      t.pc = (if s.key.getLsbD s.v[x.val].toNat = true then s.pc + 4 else s.pc + 2) ∧ SameButPc s t) ∧
    (∃ t, exec (.sknpVx x) s = .next t ∧
      t.pc = (if s.key.getLsbD s.v[x.val].toNat = false then s.pc + 4 else s.pc + 2) ∧ SameButPc s t)) ∧
  (∀ (x : Reg) (s : State), 15 < s.v[x.val].toNat →
    exec (.skpVx x) s = .next { s with halted := true, faultCode := .keyRange, faultAddr := 0 } ∧
    exec (.sknpVx x) s = .next { s with halted := true, faultCode := .keyRange, faultAddr := 0 })

/-- R295: LD Vx,K loads the lowest-numbered held key; with no key held it changes nothing, PC included. -/
def Obligations.KeyWaitTakesTheLowestHeldKeyOrHolds : Prop :=
  (∀ (x : Reg) (s : State) (k : Fin 16), s.key.getLsbD k.val = true → (∀ j < k.val, s.key.getLsbD j = false) →
    ∃ t, exec (.ldVxK x) s = .next t ∧ t.v[x.val].toNat = k.val ∧
      OtherRegsKept x s t ∧ t.pc = s.pc + 2 ∧ SameButRegsPc s t) ∧
  (∀ (x : Reg) (s : State), (∀ j < 16, s.key.getLsbD j = false) → exec (.ldVxK x) s = .next s)

/-- R40, R295: a STEP of a CORE that awaits a key changes nothing but LOAD_LOCK, and the condition ends with the first
held key. -/
def Obligations.AwaitingAKeyHoldsUntilOneIsHeld : Prop :=
  ∀ s : State, awaitingKey s = true →
    step s = .next { s with loadLock := true } ∧
    ∀ k : BitVec 16, k ≠ 0 → ∃ t, step (portSetKeys k s) = .next t ∧ t.pc = s.pc + 2

/-! ## Whole-machine rules -/

/-- R30 to R39, R264, R321: which instructions write each piece of state. V: a destination, or VF by a flag writer; PC:
an instruction that raises no fault; HALTED, FAULT_CODE and FAULT_ADDR: one that raises a fault; KEY and LOAD_LOCK: none.
The last two clauses are about the model's own fields and no rule of the spec: RND alone moves the count of draws
(log 1, DESIGN CHOICE), and nothing writes the parameters (log 3, DESIGN CHOICE). -/
def Obligations.EachPieceIsWrittenOnlyByItsInstructions : Prop :=
  ∀ (i : Instr) (s t : State), exec i s = .next t →
    (∀ j : Reg, t.v[j.val] ≠ s.v[j.val] → destination i j = true ∨ (j = 15 ∧ writesFlag i = true)) ∧
    (t.pc ≠ s.pc → raises i s = none) ∧
    (t.disp ≠ s.disp → i = .cls ∨ ∃ x y n, i = .drwVxVyN x y n) ∧
    (t.mem ≠ s.mem → ∃ x, i = .ldBVx x ∨ i = .ldMemVx x) ∧
    (t.i ≠ s.i → (∃ nnn, i = .ldIAddr nnn) ∨ ∃ x, i = .addIVx x ∨ i = .ldFVx x) ∧
    (t.stack ≠ s.stack → ∃ nnn, i = .call nnn) ∧
    (t.sp ≠ s.sp → i = .ret ∨ ∃ nnn, i = .call nnn) ∧
    (t.dt ≠ s.dt → ∃ x, i = .ldDtVx x) ∧
    (t.st ≠ s.st → ∃ x, i = .ldStVx x) ∧
    (t.halted ≠ s.halted ∨ t.faultCode ≠ s.faultCode ∨ t.faultAddr ≠ s.faultAddr → raises i s ≠ none) ∧
    t.key = s.key ∧ t.loadLock = s.loadLock ∧
    (t.draws ≠ s.draws → ∃ x kk, i = .rndVxKk x kk) ∧ t.params = s.params

/-- R35, R333: no instruction reads ST, and one that is not RND does not depend on the draw. -/
def Obligations.SoundTimerAndUnusedDrawAreInvisible : Prop :=
  ∀ (i : Instr) (s : State) (b : Byte) (n : Nat), ∃ t, exec i s = .next t ∧
    (∃ u, exec i { s with st := b } = .next u ∧ u = { t with st := u.st } ∧
      ((∃ x, i = .ldStVx x) → u.st = t.st) ∧ ((¬ ∃ x, i = .ldStVx x) → u.st = b ∧ t.st = s.st)) ∧
    ((¬ ∃ x kk, i = .rndVxKk x kk) → exec i { s with draws := n } = .next { t with draws := n })

/-- R320, R322: the fault of an instruction is exactly the one the table gives, at its address, which fits 16 bits; and
where the table gives none the instruction raises none. -/
def Obligations.FaultsAreExactlyThoseOfTheTable : Prop :=
  (∀ (i : Instr) (s : State) (c : FaultCode) (a : Nat), raises i s = some (c, a) →
    exec i s = .next { s with halted := true, faultCode := c, faultAddr := BitVec.ofNat 16 a } ∧
    (BitVec.ofNat 16 a).toNat = a) ∧
  (∀ (i : Instr) (s : State), raises i s = none →
    ∃ t, exec i s = .next t ∧ t.halted = s.halted ∧ t.faultCode = s.faultCode ∧ t.faultAddr = s.faultAddr) ∧
  [FaultCode.none, .fetchError, .stackOverflow, .stackUnderflow, .memRange, .keyRange].map FaultCode.number =
    [0, 1, 2, 3, 4, 5]

/-- R321: a fault is precise: after the step that raises it, only HALTED, FAULT_CODE, FAULT_ADDR and LOAD_LOCK differ. -/
def Obligations.FaultsArePrecise : Prop :=
  ∀ s t : State, step s = .next t → s.halted = false → t.halted = true →
    t.faultCode ≠ .none ∧
    t = { s with halted := true, faultCode := t.faultCode, faultAddr := t.faultAddr, loadLock := true }

/-- R325, R337: a halted CORE stays as it is, but for the timers and the key latch, under every sequence of host
operations without RESET, and RESET ends the halt. -/
def Obligations.HaltLastsUntilReset : Prop :=
  (∀ (ops : List PortOp) (s : State), s.halted = true → s.loadLock = true → PortOp.reset ∉ ops →
    portRun ops s = { s with
      key := (portRun ops s).key, dt := (portRun ops s).dt, st := (portRun ops s).st }) ∧
  (∀ s : State, (portReset s).halted = false ∧ (portReset s).faultCode = .none ∧ (portReset s).faultAddr = 0)

/-- The invariant `State.Inv` holds at reset. -/
def Obligations.ResetMeetsTheInvariant : Prop :=
  State.reset.Inv ∧ ∀ p : Config.Params, (State.resetWith p).Inv

/-- Every step keeps `State.Inv`: memory in canonical form, PC at most 0x10FE, the slots in use in 2..4096, I within 12
bits under `i_mask_12`, HALTED, FAULT_CODE and FAULT_ADDR in agreement, no halt without LOAD_LOCK. -/
def Obligations.EveryStepKeepsTheInvariant : Prop :=
  ∀ s t : State, s.Inv → step s = .next t → t.Inv

/-- R327: every sequence of host operations, in any order, keeps `State.Inv`. -/
def Obligations.EveryRunOfHostOperationsKeepsTheInvariant : Prop :=
  ∀ (ops : List PortOp) (s : State), s.Inv → (portRun ops s).Inv

/-! ## Host operations (60_exceptions.md, 70_reset_and_hazards.md) -/

/-- R370, R371: what RESET leaves, from every state; the bytes of memory are those of the machine's FONT at 0..79 and 0
from there to 4095. At power-on the state is the RESET state (D34). The model's choices: that FONT and the other parameter
are a field that RESET keeps, at the defaults at power-on (log 3, DESIGN CHOICE). The count of draws is the model's own
(log 2), and no clause is about it. -/
def Obligations.ResetInitializesAllState : Prop :=
  (∀ s : State, ∃ t, portReset s = t ∧
    (∀ j : Reg, t.v[j.val] = 0) ∧ t.i = 0 ∧ t.pc = 512 ∧ t.sp = 0 ∧ (∀ j : Fin 16, t.stack[j.val] = 0) ∧
    t.dt = 0 ∧ t.st = 0 ∧ (∀ r c, Display.cell t.disp r c = false) ∧ t.key = 0 ∧
    (∀ (d : Fin 16) (k : Fin 5), t.readByte (5 * d.val + k.val) = s.params.font[d.val][k.val]) ∧
    (∀ a, 80 ≤ a → a < 4096 → t.readByte a = 0) ∧
    t.halted = false ∧ t.faultCode.number = 0 ∧ t.faultAddr = 0 ∧ t.loadLock = false ∧ t.params = s.params) ∧
  (∀ s : State, State.reset = { portReset s with params := defaultParams, draws := State.reset.draws })

/-- R328: TICK takes each timer one down, saturating at 0, and changes nothing else, in every state. -/
def Obligations.TickCountsDownAndSaturates : Prop :=
  ∀ s : State, (portTick s).dt.toNat = s.dt.toNat - 1 ∧ (portTick s).st.toNat = s.st.toNat - 1 ∧
    portTick s = { s with dt := (portTick s).dt, st := (portTick s).st }

/-- R329: SET_KEYS overwrites the whole latch, bit j for key j, and nothing else. -/
def Obligations.SetKeysOverwritesTheLatch : Prop :=
  ∀ (k : BitVec 16) (s : State), (∀ j < 16, (portSetKeys k s).keyHeld j = k.getLsbD j) ∧
    portSetKeys k s = { s with key := (portSetKeys k s).key }

/-- R372: LOAD stores the image at 512 and sets LOAD_LOCK; it is refused, with no state changed, when LOAD_LOCK is set or
the image has more than 3584 bytes. -/
def Obligations.LoadStoresTheImageOrIsRefused : Prop :=
  (∀ (bytes : List Byte) (s : State), s.loadLock = true ∨ 3584 < bytes.length →
    portLoad bytes s = (.loadError, s)) ∧
  (∀ (bytes : List Byte) (s : State), s.loadLock = false → bytes.length ≤ 3584 →
    ∃ t, portLoad bytes s = (.ok, t) ∧
      (s.mem.wf s.params → ∀ (j : Nat) (h : j < bytes.length), t.readByte (512 + j) = bytes[j]) ∧
      (∀ a, a < 512 ∨ 512 + bytes.length ≤ a → t.readByte a = s.readByte a) ∧
      t = { s with mem := t.mem, loadLock := true })

/-- R373: after RESET and LOAD the first STEP fetches the first word of the image, at 0x200. -/
def Obligations.BootRunsTheFirstWordOfTheImage : Prop :=
  ∀ (s : State) (hi lo : Byte) (rest : List Byte), imageFits (hi :: lo :: rest) = true →
    ∃ t, portLoad (hi :: lo :: rest) (portReset s) = (.ok, t) ∧ t.pc = 0x200 ∧
      t.fetch = some (wordOfBytes hi lo) ∧
      ∀ i, decode (wordOfBytes hi lo) = .instr i → step t = exec i t

/-- R330 to R332: the three reads return the display, ST and the status, and change nothing. -/
def Obligations.ReadsReturnTheStateAndChangeNothing : Prop :=
  ∀ s : State,
    portApply .readDisplay s = (s, .display s.disp) ∧ portApply .readSt s = (s, .sound s.st) ∧
    portApply .readStatus s =
      (s, .status { halted := s.halted, faultCode := s.faultCode.number, faultAddr := s.faultAddr })
end

