-- ==== Sys2Proof/Laws/Decode.lean ====
section
/-! SUPPORT. The fields of an encoded word are the fields it was made from (30_encoding.md R101, R102). -/

namespace Sys2Proof

theorem nibble_toFin (x : Fin 16) : (nibble x).toFin = x := rfl

theorem toFin_nibble (b : BitVec 4) : nibble b.toFin = b := rfl

theorem hi_append {n m : Nat} (a : BitVec n) (b : BitVec m) : (a ++ b).extractLsb' m n = a :=
  BitVec.extractLsb'_append_eq_left

theorem lo_append {n m : Nat} (a : BitVec n) (b : BitVec m) : (a ++ b).extractLsb' 0 m = b :=
  BitVec.extractLsb'_append_eq_right

/-- A field inside the low part of a word does not see the high part. -/
theorem mid_append {n m : Nat} (a : BitVec n) (b : BitVec m) (k l : Nat) (h : k + l ≤ m) :
    (a ++ b).extractLsb' k l = b.extractLsb' k l :=
  BitVec.extractLsb'_append_eq_of_add_le h

section
variable (f : BitVec 4) (nnn : Addr) (x y : Reg) (kk : Byte) (s : BitVec 4)

@[simp] theorem familyField_encodeA : familyField (encodeA f nnn) = f := hi_append f nnn
@[simp] theorem nnnField_encodeA : nnnField (encodeA f nnn) = nnn := lo_append f nnn

@[simp] theorem familyField_encodeXK : familyField (encodeXK f x kk) = f := hi_append f _

@[simp] theorem xField_encodeXK : xField (encodeXK f x kk) = x := by
  unfold xField encodeXK
  rw [mid_append _ _ 8 4 (by omega)]
  exact congrArg BitVec.toFin (hi_append (nibble x) kk)

@[simp] theorem kkField_encodeXK : kkField (encodeXK f x kk) = kk := by
  unfold kkField encodeXK
  rw [mid_append _ _ 0 8 (by omega)]
  exact lo_append (nibble x) kk

@[simp] theorem familyField_encodeXY : familyField (encodeXY f x y s) = f := hi_append f _

@[simp] theorem xField_encodeXY : xField (encodeXY f x y s) = x := by
  unfold xField encodeXY
  rw [mid_append _ _ 8 4 (by omega)]
  exact congrArg BitVec.toFin (hi_append (nibble x) _)

@[simp] theorem yField_encodeXY : yField (encodeXY f x y s) = y := by
  unfold yField encodeXY
  rw [mid_append _ _ 4 4 (by omega), mid_append _ _ 4 4 (by omega)]
  exact congrArg BitVec.toFin (hi_append (nibble y) s)

@[simp] theorem lowNibble_encodeXY : lowNibble (encodeXY f x y s) = s := by
  unfold lowNibble encodeXY
  rw [mid_append _ _ 0 4 (by omega), mid_append _ _ 0 4 (by omega)]
  exact lo_append (nibble y) s

end

/-! ### Bits of an encoded word -/

theorem getLsbD_encodeA (f : BitVec 4) (nnn : Addr) (i : Nat) :
    (encodeA f nnn).getLsbD i = if i < 12 then nnn.getLsbD i else f.getLsbD (i - 12) :=
  BitVec.getLsbD_append

theorem getLsbD_encodeXK (f : BitVec 4) (x : Reg) (kk : Byte) (i : Nat) :
    (encodeXK f x kk).getLsbD i =
      if i < 12 then (if i < 8 then kk.getLsbD i else (nibble x).getLsbD (i - 8)) else f.getLsbD (i - 12) :=
  (getLsbD_encodeA f _ i).trans (by split <;> [exact BitVec.getLsbD_append; rfl])

theorem getLsbD_encodeXY (f : BitVec 4) (x y : Reg) (s : BitVec 4) (i : Nat) :
    (encodeXY f x y s).getLsbD i =
      if i < 12 then
        (if i < 8 then (if i < 4 then s.getLsbD i else (nibble y).getLsbD (i - 4)) else (nibble x).getLsbD (i - 8))
      else f.getLsbD (i - 12) :=
  (getLsbD_encodeXK f x _ i).trans (by split <;> [(split <;> [exact BitVec.getLsbD_append; rfl]); rfl])

theorem nibble_zero : nibble 0 = 0#4 := rfl
theorem nibble_xField (w : Word) : nibble (xField w) = w.extractLsb' 8 4 := rfl
theorem nibble_yField (w : Word) : nibble (yField w) = w.extractLsb' 4 4 := rfl

section
variable (w : Word)

theorem eta_encodeA : encodeA (familyField w) (nnnField w) = w := by
  apply BitVec.eq_of_getLsbD_eq
  intro i hi
  simp only [getLsbD_encodeA, familyField, nnnField, BitVec.getLsbD_extractLsb']
  interval_cases i <;> simp

theorem eta_encodeXK : encodeXK (familyField w) (xField w) (kkField w) = w := by
  apply BitVec.eq_of_getLsbD_eq
  intro i hi
  simp only [getLsbD_encodeXK, familyField, nibble_xField, kkField, BitVec.getLsbD_extractLsb']
  interval_cases i <;> simp

theorem eta_encodeXY : encodeXY (familyField w) (xField w) (yField w) (lowNibble w) = w := by
  apply BitVec.eq_of_getLsbD_eq
  intro i hi
  simp only [getLsbD_encodeXY, familyField, nibble_xField, nibble_yField, lowNibble, BitVec.getLsbD_extractLsb']
  interval_cases i <;> simp

theorem and_F000 : w &&& 0xF000#16 = encodeA (familyField w) 0 := by
  apply BitVec.eq_of_getLsbD_eq
  intro i hi
  simp only [getLsbD_encodeA, familyField, BitVec.getLsbD_and, BitVec.getLsbD_extractLsb']
  interval_cases i <;> simp

theorem and_F00F : w &&& 0xF00F#16 = encodeXY (familyField w) 0 0 (lowNibble w) := by
  apply BitVec.eq_of_getLsbD_eq
  intro i hi
  simp only [getLsbD_encodeXY, familyField, lowNibble, nibble_zero, BitVec.getLsbD_and, BitVec.getLsbD_extractLsb']
  interval_cases i <;> simp

theorem and_F0FF : w &&& 0xF0FF#16 = encodeXK (familyField w) 0 (kkField w) := by
  apply BitVec.eq_of_getLsbD_eq
  intro i hi
  simp only [getLsbD_encodeXK, familyField, kkField, nibble_zero, BitVec.getLsbD_and, BitVec.getLsbD_extractLsb']
  interval_cases i <;> simp

theorem and_000F : w &&& 0x000F#16 = encodeXY 0 0 0 (lowNibble w) := by
  apply BitVec.eq_of_getLsbD_eq
  intro i hi
  simp only [getLsbD_encodeXY, lowNibble, nibble_zero, BitVec.getLsbD_and, BitVec.getLsbD_extractLsb']
  interval_cases i <;> simp

theorem and_00F0 : w &&& 0x00F0#16 = encodeXY 0 0 (yField w) 0 := by
  apply BitVec.eq_of_getLsbD_eq
  intro i hi
  simp only [getLsbD_encodeXY, nibble_yField, nibble_zero, BitVec.getLsbD_and, BitVec.getLsbD_extractLsb']
  interval_cases i <;> simp
end

/-- Two words of one format are the same when their fields are. -/
theorem encodeA_inj {f f' : BitVec 4} {a a' : Addr} : encodeA f a = encodeA f' a' ↔ f = f' ∧ a = a' :=
  ⟨fun h => ⟨by simpa using congrArg familyField h, by simpa using congrArg nnnField h⟩,
   fun ⟨h, k⟩ => by rw [h, k]⟩

theorem encodeXK_inj {f f' : BitVec 4} {x x' : Reg} {k k' : Byte} :
    encodeXK f x k = encodeXK f' x' k' ↔ f = f' ∧ x = x' ∧ k = k' :=
  ⟨fun h => ⟨by simpa using congrArg familyField h, by simpa using congrArg xField h,
    by simpa using congrArg kkField h⟩, fun ⟨h, k, l⟩ => by rw [h, k, l]⟩

theorem encodeXY_inj {f f' : BitVec 4} {x x' y y' : Reg} {s s' : BitVec 4} :
    encodeXY f x y s = encodeXY f' x' y' s' ↔ f = f' ∧ x = x' ∧ y = y' ∧ s = s' :=
  ⟨fun h => ⟨by simpa using congrArg familyField h, by simpa using congrArg xField h,
    by simpa using congrArg yField h, by simpa using congrArg lowNibble h⟩,
   fun ⟨h, k, l, m⟩ => by rw [h, k, l, m]⟩

/-! ### Words and bytes -/

/-- UNKNOWN carries the word that was decoded. -/
theorem decode_unknown {op w : Word} (h : decode op = .unknown w) : w = op := by
  revert h
  unfold decode
  simp only
  split <;> (try split) <;> (try split) <;> simp <;> exact fun e => e.symm

/-- The two bytes of a word spell it again. -/
@[simp] theorem wordOfBytes_bytesOfWord (op : Word) :
    wordOfBytes (bytesOfWord op).1 (bytesOfWord op).2 = op := by
  unfold wordOfBytes bytesOfWord
  exact BitVec.extractLsb'_append_extractLsb'_eq_extractLsb' (by omega) |>.trans (by simp)

end Sys2Proof
end

