-- ==== Sys2Proof/Laws/State.lean ====
section
/-! SUPPORT. What each write of a piece of state leaves in each field: one lemma per field per write, so that no proof
unfolds a record update. -/

namespace Sys2Proof.Machine.State

/-! ### setReg -/

section
variable (s : State) (x : Reg) (b : Byte)

@[simp] theorem setReg_v : (s.setReg x b).v = s.v.set x.val b := rfl
@[simp] theorem setReg_i : (s.setReg x b).i = s.i := rfl
@[simp] theorem setReg_pc : (s.setReg x b).pc = s.pc := rfl
@[simp] theorem setReg_sp : (s.setReg x b).sp = s.sp := rfl
@[simp] theorem setReg_stack : (s.setReg x b).stack = s.stack := rfl
@[simp] theorem setReg_dt : (s.setReg x b).dt = s.dt := rfl
@[simp] theorem setReg_st : (s.setReg x b).st = s.st := rfl
@[simp] theorem setReg_disp : (s.setReg x b).disp = s.disp := rfl
@[simp] theorem setReg_key : (s.setReg x b).key = s.key := rfl
@[simp] theorem setReg_mem : (s.setReg x b).mem = s.mem := rfl
@[simp] theorem setReg_halted : (s.setReg x b).halted = s.halted := rfl
@[simp] theorem setReg_faultCode : (s.setReg x b).faultCode = s.faultCode := rfl
@[simp] theorem setReg_faultAddr : (s.setReg x b).faultAddr = s.faultAddr := rfl
@[simp] theorem setReg_loadLock : (s.setReg x b).loadLock = s.loadLock := rfl
@[simp] theorem setReg_params : (s.setReg x b).params = s.params := rfl
@[simp] theorem setReg_draws : (s.setReg x b).draws = s.draws := rfl

end

/-! ### setRegs -/

section
variable (s : State) (v : Vector Byte 16)

@[simp] theorem setRegs_v : (s.setRegs v).v = v := rfl
@[simp] theorem setRegs_i : (s.setRegs v).i = s.i := rfl
@[simp] theorem setRegs_pc : (s.setRegs v).pc = s.pc := rfl
@[simp] theorem setRegs_sp : (s.setRegs v).sp = s.sp := rfl
@[simp] theorem setRegs_stack : (s.setRegs v).stack = s.stack := rfl
@[simp] theorem setRegs_dt : (s.setRegs v).dt = s.dt := rfl
@[simp] theorem setRegs_st : (s.setRegs v).st = s.st := rfl
@[simp] theorem setRegs_disp : (s.setRegs v).disp = s.disp := rfl
@[simp] theorem setRegs_key : (s.setRegs v).key = s.key := rfl
@[simp] theorem setRegs_mem : (s.setRegs v).mem = s.mem := rfl
@[simp] theorem setRegs_halted : (s.setRegs v).halted = s.halted := rfl
@[simp] theorem setRegs_faultCode : (s.setRegs v).faultCode = s.faultCode := rfl
@[simp] theorem setRegs_faultAddr : (s.setRegs v).faultAddr = s.faultAddr := rfl
@[simp] theorem setRegs_loadLock : (s.setRegs v).loadLock = s.loadLock := rfl
@[simp] theorem setRegs_params : (s.setRegs v).params = s.params := rfl
@[simp] theorem setRegs_draws : (s.setRegs v).draws = s.draws := rfl

end

/-! ### setI -/

section
variable (s : State) (w : Word)

@[simp] theorem setI_v : (s.setI w).v = s.v := rfl
@[simp] theorem setI_i : (s.setI w).i = w := rfl
@[simp] theorem setI_pc : (s.setI w).pc = s.pc := rfl
@[simp] theorem setI_sp : (s.setI w).sp = s.sp := rfl
@[simp] theorem setI_stack : (s.setI w).stack = s.stack := rfl
@[simp] theorem setI_dt : (s.setI w).dt = s.dt := rfl
@[simp] theorem setI_st : (s.setI w).st = s.st := rfl
@[simp] theorem setI_disp : (s.setI w).disp = s.disp := rfl
@[simp] theorem setI_key : (s.setI w).key = s.key := rfl
@[simp] theorem setI_mem : (s.setI w).mem = s.mem := rfl
@[simp] theorem setI_halted : (s.setI w).halted = s.halted := rfl
@[simp] theorem setI_faultCode : (s.setI w).faultCode = s.faultCode := rfl
@[simp] theorem setI_faultAddr : (s.setI w).faultAddr = s.faultAddr := rfl
@[simp] theorem setI_loadLock : (s.setI w).loadLock = s.loadLock := rfl
@[simp] theorem setI_params : (s.setI w).params = s.params := rfl
@[simp] theorem setI_draws : (s.setI w).draws = s.draws := rfl

end

/-! ### setPc -/

section
variable (s : State) (w : Word)

@[simp] theorem setPc_v : (s.setPc w).v = s.v := rfl
@[simp] theorem setPc_i : (s.setPc w).i = s.i := rfl
@[simp] theorem setPc_pc : (s.setPc w).pc = w := rfl
@[simp] theorem setPc_sp : (s.setPc w).sp = s.sp := rfl
@[simp] theorem setPc_stack : (s.setPc w).stack = s.stack := rfl
@[simp] theorem setPc_dt : (s.setPc w).dt = s.dt := rfl
@[simp] theorem setPc_st : (s.setPc w).st = s.st := rfl
@[simp] theorem setPc_disp : (s.setPc w).disp = s.disp := rfl
@[simp] theorem setPc_key : (s.setPc w).key = s.key := rfl
@[simp] theorem setPc_mem : (s.setPc w).mem = s.mem := rfl
@[simp] theorem setPc_halted : (s.setPc w).halted = s.halted := rfl
@[simp] theorem setPc_faultCode : (s.setPc w).faultCode = s.faultCode := rfl
@[simp] theorem setPc_faultAddr : (s.setPc w).faultAddr = s.faultAddr := rfl
@[simp] theorem setPc_loadLock : (s.setPc w).loadLock = s.loadLock := rfl
@[simp] theorem setPc_params : (s.setPc w).params = s.params := rfl
@[simp] theorem setPc_draws : (s.setPc w).draws = s.draws := rfl

end

/-! ### setDt -/

section
variable (s : State) (b : Byte)

@[simp] theorem setDt_v : (s.setDt b).v = s.v := rfl
@[simp] theorem setDt_i : (s.setDt b).i = s.i := rfl
@[simp] theorem setDt_pc : (s.setDt b).pc = s.pc := rfl
@[simp] theorem setDt_sp : (s.setDt b).sp = s.sp := rfl
@[simp] theorem setDt_stack : (s.setDt b).stack = s.stack := rfl
@[simp] theorem setDt_dt : (s.setDt b).dt = b := rfl
@[simp] theorem setDt_st : (s.setDt b).st = s.st := rfl
@[simp] theorem setDt_disp : (s.setDt b).disp = s.disp := rfl
@[simp] theorem setDt_key : (s.setDt b).key = s.key := rfl
@[simp] theorem setDt_mem : (s.setDt b).mem = s.mem := rfl
@[simp] theorem setDt_halted : (s.setDt b).halted = s.halted := rfl
@[simp] theorem setDt_faultCode : (s.setDt b).faultCode = s.faultCode := rfl
@[simp] theorem setDt_faultAddr : (s.setDt b).faultAddr = s.faultAddr := rfl
@[simp] theorem setDt_loadLock : (s.setDt b).loadLock = s.loadLock := rfl
@[simp] theorem setDt_params : (s.setDt b).params = s.params := rfl
@[simp] theorem setDt_draws : (s.setDt b).draws = s.draws := rfl

end

/-! ### setSt -/

section
variable (s : State) (b : Byte)

@[simp] theorem setSt_v : (s.setSt b).v = s.v := rfl
@[simp] theorem setSt_i : (s.setSt b).i = s.i := rfl
@[simp] theorem setSt_pc : (s.setSt b).pc = s.pc := rfl
@[simp] theorem setSt_sp : (s.setSt b).sp = s.sp := rfl
@[simp] theorem setSt_stack : (s.setSt b).stack = s.stack := rfl
@[simp] theorem setSt_dt : (s.setSt b).dt = s.dt := rfl
@[simp] theorem setSt_st : (s.setSt b).st = b := rfl
@[simp] theorem setSt_disp : (s.setSt b).disp = s.disp := rfl
@[simp] theorem setSt_key : (s.setSt b).key = s.key := rfl
@[simp] theorem setSt_mem : (s.setSt b).mem = s.mem := rfl
@[simp] theorem setSt_halted : (s.setSt b).halted = s.halted := rfl
@[simp] theorem setSt_faultCode : (s.setSt b).faultCode = s.faultCode := rfl
@[simp] theorem setSt_faultAddr : (s.setSt b).faultAddr = s.faultAddr := rfl
@[simp] theorem setSt_loadLock : (s.setSt b).loadLock = s.loadLock := rfl
@[simp] theorem setSt_params : (s.setSt b).params = s.params := rfl
@[simp] theorem setSt_draws : (s.setSt b).draws = s.draws := rfl

end

/-! ### setDisp -/

section
variable (s : State) (d : Display)

@[simp] theorem setDisp_v : (s.setDisp d).v = s.v := rfl
@[simp] theorem setDisp_i : (s.setDisp d).i = s.i := rfl
@[simp] theorem setDisp_pc : (s.setDisp d).pc = s.pc := rfl
@[simp] theorem setDisp_sp : (s.setDisp d).sp = s.sp := rfl
@[simp] theorem setDisp_stack : (s.setDisp d).stack = s.stack := rfl
@[simp] theorem setDisp_dt : (s.setDisp d).dt = s.dt := rfl
@[simp] theorem setDisp_st : (s.setDisp d).st = s.st := rfl
@[simp] theorem setDisp_disp : (s.setDisp d).disp = d := rfl
@[simp] theorem setDisp_key : (s.setDisp d).key = s.key := rfl
@[simp] theorem setDisp_mem : (s.setDisp d).mem = s.mem := rfl
@[simp] theorem setDisp_halted : (s.setDisp d).halted = s.halted := rfl
@[simp] theorem setDisp_faultCode : (s.setDisp d).faultCode = s.faultCode := rfl
@[simp] theorem setDisp_faultAddr : (s.setDisp d).faultAddr = s.faultAddr := rfl
@[simp] theorem setDisp_loadLock : (s.setDisp d).loadLock = s.loadLock := rfl
@[simp] theorem setDisp_params : (s.setDisp d).params = s.params := rfl
@[simp] theorem setDisp_draws : (s.setDisp d).draws = s.draws := rfl

end

/-! ### setKey -/

section
variable (s : State) (k : BitVec 16)

@[simp] theorem setKey_v : (s.setKey k).v = s.v := rfl
@[simp] theorem setKey_i : (s.setKey k).i = s.i := rfl
@[simp] theorem setKey_pc : (s.setKey k).pc = s.pc := rfl
@[simp] theorem setKey_sp : (s.setKey k).sp = s.sp := rfl
@[simp] theorem setKey_stack : (s.setKey k).stack = s.stack := rfl
@[simp] theorem setKey_dt : (s.setKey k).dt = s.dt := rfl
@[simp] theorem setKey_st : (s.setKey k).st = s.st := rfl
@[simp] theorem setKey_disp : (s.setKey k).disp = s.disp := rfl
@[simp] theorem setKey_key : (s.setKey k).key = k := rfl
@[simp] theorem setKey_mem : (s.setKey k).mem = s.mem := rfl
@[simp] theorem setKey_halted : (s.setKey k).halted = s.halted := rfl
@[simp] theorem setKey_faultCode : (s.setKey k).faultCode = s.faultCode := rfl
@[simp] theorem setKey_faultAddr : (s.setKey k).faultAddr = s.faultAddr := rfl
@[simp] theorem setKey_loadLock : (s.setKey k).loadLock = s.loadLock := rfl
@[simp] theorem setKey_params : (s.setKey k).params = s.params := rfl
@[simp] theorem setKey_draws : (s.setKey k).draws = s.draws := rfl

end

/-! ### setStack -/

section
variable (s : State) (k : Vector Word 16) (n : Fin 17)

@[simp] theorem setStack_v : (s.setStack k n).v = s.v := rfl
@[simp] theorem setStack_i : (s.setStack k n).i = s.i := rfl
@[simp] theorem setStack_pc : (s.setStack k n).pc = s.pc := rfl
@[simp] theorem setStack_sp : (s.setStack k n).sp = n := rfl
@[simp] theorem setStack_stack : (s.setStack k n).stack = k := rfl
@[simp] theorem setStack_dt : (s.setStack k n).dt = s.dt := rfl
@[simp] theorem setStack_st : (s.setStack k n).st = s.st := rfl
@[simp] theorem setStack_disp : (s.setStack k n).disp = s.disp := rfl
@[simp] theorem setStack_key : (s.setStack k n).key = s.key := rfl
@[simp] theorem setStack_mem : (s.setStack k n).mem = s.mem := rfl
@[simp] theorem setStack_halted : (s.setStack k n).halted = s.halted := rfl
@[simp] theorem setStack_faultCode : (s.setStack k n).faultCode = s.faultCode := rfl
@[simp] theorem setStack_faultAddr : (s.setStack k n).faultAddr = s.faultAddr := rfl
@[simp] theorem setStack_loadLock : (s.setStack k n).loadLock = s.loadLock := rfl
@[simp] theorem setStack_params : (s.setStack k n).params = s.params := rfl
@[simp] theorem setStack_draws : (s.setStack k n).draws = s.draws := rfl

end

/-! ### lock -/

section
variable (s : State)

@[simp] theorem lock_v : (s.lock).v = s.v := rfl
@[simp] theorem lock_i : (s.lock).i = s.i := rfl
@[simp] theorem lock_pc : (s.lock).pc = s.pc := rfl
@[simp] theorem lock_sp : (s.lock).sp = s.sp := rfl
@[simp] theorem lock_stack : (s.lock).stack = s.stack := rfl
@[simp] theorem lock_dt : (s.lock).dt = s.dt := rfl
@[simp] theorem lock_st : (s.lock).st = s.st := rfl
@[simp] theorem lock_disp : (s.lock).disp = s.disp := rfl
@[simp] theorem lock_key : (s.lock).key = s.key := rfl
@[simp] theorem lock_mem : (s.lock).mem = s.mem := rfl
@[simp] theorem lock_halted : (s.lock).halted = s.halted := rfl
@[simp] theorem lock_faultCode : (s.lock).faultCode = s.faultCode := rfl
@[simp] theorem lock_faultAddr : (s.lock).faultAddr = s.faultAddr := rfl
@[simp] theorem lock_loadLock : (s.lock).loadLock = true := rfl
@[simp] theorem lock_params : (s.lock).params = s.params := rfl
@[simp] theorem lock_draws : (s.lock).draws = s.draws := rfl

end

/-! ### writeByte -/

section
variable (s : State) (a : Nat) (b : Byte)

@[simp] theorem writeByte_v : (s.writeByte a b).v = s.v := rfl
@[simp] theorem writeByte_i : (s.writeByte a b).i = s.i := rfl
@[simp] theorem writeByte_pc : (s.writeByte a b).pc = s.pc := rfl
@[simp] theorem writeByte_sp : (s.writeByte a b).sp = s.sp := rfl
@[simp] theorem writeByte_stack : (s.writeByte a b).stack = s.stack := rfl
@[simp] theorem writeByte_dt : (s.writeByte a b).dt = s.dt := rfl
@[simp] theorem writeByte_st : (s.writeByte a b).st = s.st := rfl
@[simp] theorem writeByte_disp : (s.writeByte a b).disp = s.disp := rfl
@[simp] theorem writeByte_key : (s.writeByte a b).key = s.key := rfl
@[simp] theorem writeByte_mem : (s.writeByte a b).mem = s.mem.write s.params a b := rfl
@[simp] theorem writeByte_halted : (s.writeByte a b).halted = s.halted := rfl
@[simp] theorem writeByte_faultCode : (s.writeByte a b).faultCode = s.faultCode := rfl
@[simp] theorem writeByte_faultAddr : (s.writeByte a b).faultAddr = s.faultAddr := rfl
@[simp] theorem writeByte_loadLock : (s.writeByte a b).loadLock = s.loadLock := rfl
@[simp] theorem writeByte_params : (s.writeByte a b).params = s.params := rfl
@[simp] theorem writeByte_draws : (s.writeByte a b).draws = s.draws := rfl

end

/-! ### raise -/

section
variable (s : State) (c : FaultCode) (a : Nat)

@[simp] theorem raise_v : (s.raise c a).v = s.v := rfl
@[simp] theorem raise_i : (s.raise c a).i = s.i := rfl
@[simp] theorem raise_pc : (s.raise c a).pc = s.pc := rfl
@[simp] theorem raise_sp : (s.raise c a).sp = s.sp := rfl
@[simp] theorem raise_stack : (s.raise c a).stack = s.stack := rfl
@[simp] theorem raise_dt : (s.raise c a).dt = s.dt := rfl
@[simp] theorem raise_st : (s.raise c a).st = s.st := rfl
@[simp] theorem raise_disp : (s.raise c a).disp = s.disp := rfl
@[simp] theorem raise_key : (s.raise c a).key = s.key := rfl
@[simp] theorem raise_mem : (s.raise c a).mem = s.mem := rfl
@[simp] theorem raise_halted : (s.raise c a).halted = true := rfl
@[simp] theorem raise_faultCode : (s.raise c a).faultCode = c := rfl
@[simp] theorem raise_faultAddr : (s.raise c a).faultAddr = BitVec.ofNat 16 a := rfl
@[simp] theorem raise_loadLock : (s.raise c a).loadLock = s.loadLock := rfl
@[simp] theorem raise_params : (s.raise c a).params = s.params := rfl
@[simp] theorem raise_draws : (s.raise c a).draws = s.draws := rfl

end

end Sys2Proof.Machine.State
end

