-- ==== Sys2Proof/Laws/Memory.lean ====
section
/-! SUPPORT. The laws of memory: a read after a write, the canonical form, and that equal reads make equal memories. -/

namespace Sys2Proof.Machine

variable {p : Config.Params} {m m' : Memory} {a a' : Nat} {b : Byte}

namespace Memory

@[simp] theorem read_nil : read p [] a = resetByte p a := rfl

theorem read_of_lt_all (h : ∀ c ∈ m, a < c.1) : m.read p a = resetByte p a := by
  induction m with
  | nil => rfl
  | cons c m ih =>
    have hc : a < c.1 := h c (by simp)
    rw [read, if_neg (by omega), ih fun d hd => h d (by simp [hd])]

theorem read_insert_same : (m.insert a b).read p a = b := by
  induction m with
  | nil => simp [insert, read]
  | cons c m ih =>
    unfold insert
    split
    · simp [read]
    · split
      · simp [read]
      · rename_i h1 h2
        rw [read, if_neg (Ne.symm h2), ih]

theorem read_insert_ne (h : a' ≠ a) : (m.insert a b).read p a' = m.read p a' := by
  induction m with
  | nil => simp [insert, read, h.symm]
  | cons c m ih =>
    unfold insert
    split
    · simp [read, h.symm]
    · split
      · rename_i h2
        simp [read, h.symm, ← h2]
      · simp only [read, ih]

theorem read_erase_same (h : m.Pairwise (fun c d => c.1 < d.1)) :
    (m.erase a).read p a = resetByte p a := by
  induction m with
  | nil => rfl
  | cons c m ih =>
    obtain ⟨hc, hm⟩ := List.pairwise_cons.mp h
    unfold erase
    split
    · rename_i e
      exact read_of_lt_all fun d hd => e ▸ hc d hd
    · rename_i e
      rw [read, if_neg e, ih hm]

theorem read_erase_ne (h : a' ≠ a) : (m.erase a).read p a' = m.read p a' := by
  induction m with
  | nil => rfl
  | cons c m ih =>
    unfold erase
    split
    · rename_i e
      rw [read, if_neg (by omega)]
    · simp only [read, ih]

/-- A read after a write to the same place gives the value written. -/
theorem read_write_same (h : m.wf p) : (m.write p a b).read p a = b := by
  unfold write
  split
  · rename_i e
    rw [read_erase_same h.1, e]
  · exact read_insert_same

/-- A write leaves every other place alone. -/
theorem read_write_ne (h : a' ≠ a) : (m.write p a b).read p a' = m.read p a' := by
  unfold write
  split
  · exact read_erase_ne h
  · exact read_insert_ne h

theorem mem_insert {c : Host.Cell} (h : c ∈ m.insert a b) : c = (a, b) ∨ c ∈ m := by
  induction m with
  | nil => simpa [insert] using h
  | cons d m ih =>
    unfold insert at h
    split at h
    · simpa using h
    · split at h
      · rcases List.mem_cons.mp h with h | h <;> simp [h]
      · rcases List.mem_cons.mp h with h | h
        · simp [h]
        · rcases ih h with h | h <;> simp [h]

theorem mem_erase {c : Host.Cell} (h : c ∈ m.erase a) : c ∈ m := by
  induction m with
  | nil => exact h
  | cons d m ih =>
    unfold erase at h
    split at h
    · simp [h]
    · rcases List.mem_cons.mp h with h | h
      · simp [h]
      · simp [ih h]

theorem pairwise_insert (h : m.Pairwise (fun c d => c.1 < d.1)) :
    (m.insert a b).Pairwise (fun c d => c.1 < d.1) := by
  induction m with
  | nil => simp [insert]
  | cons c m ih =>
    obtain ⟨hc, hm⟩ := List.pairwise_cons.mp h
    unfold insert
    split
    · rename_i h1
      refine List.pairwise_cons.mpr ⟨fun d hd => ?_, h⟩
      rcases List.mem_cons.mp hd with rfl | hd
      · exact h1
      · exact Nat.lt_trans h1 (hc d hd)
    · split
      · rename_i h2
        exact List.pairwise_cons.mpr ⟨fun d hd => h2 ▸ hc d hd, hm⟩
      · refine List.pairwise_cons.mpr ⟨fun d hd => ?_, ih hm⟩
        rcases mem_insert hd with rfl | hd
        · show c.1 < a
          omega
        · exact hc d hd

theorem pairwise_erase (h : m.Pairwise (fun c d => c.1 < d.1)) :
    (m.erase a).Pairwise (fun c d => c.1 < d.1) := by
  induction m with
  | nil => exact h
  | cons c m ih =>
    obtain ⟨hc, hm⟩ := List.pairwise_cons.mp h
    unfold erase
    split
    · exact hm
    · exact List.pairwise_cons.mpr ⟨fun d hd => hc d (mem_erase hd), ih hm⟩

/-- A write inside the address space keeps the canonical form. -/
theorem wf_write (h : m.wf p) (ha : a < Config.memSize) : (m.write p a b).wf p := by
  unfold write
  split
  · exact ⟨pairwise_erase h.1, fun c hc => h.2 c (mem_erase hc)⟩
  · rename_i hb
    refine ⟨pairwise_insert h.1, fun c hc => ?_⟩
    rcases mem_insert hc with rfl | hc
    · exact ⟨ha, hb⟩
    · exact h.2 c hc

/-- The canonical form is canonical: memories that read the same are the same list. -/
theorem eq_of_read_eq (h : m.wf p) (h' : m'.wf p) (e : ∀ a, m.read p a = m'.read p a) : m = m' := by
  induction m generalizing m' with
  | nil =>
    cases m' with
    | nil => rfl
    | cons c m' =>
      exact absurd (by simpa [read] using (e c.1).symm) (h'.2 c (by simp)).2
  | cons c m ih =>
    obtain ⟨hc, hm⟩ := List.pairwise_cons.mp h.1
    cases m' with
    | nil => exact absurd (by simpa [read] using e c.1) (h.2 c (by simp)).2
    | cons d m' =>
      obtain ⟨hd, hm'⟩ := List.pairwise_cons.mp h'.1
      have key : c.1 = d.1 := by
        rcases Nat.lt_trichotomy c.1 d.1 with hlt | heq | hgt
        · have := e c.1
          rw [read, if_pos rfl, read_of_lt_all (m := d :: m')
            (fun x hx => by rcases List.mem_cons.mp hx with rfl | hx
                            · exact hlt
                            · exact Nat.lt_trans hlt (hd x hx))] at this
          exact absurd this (h.2 c (by simp)).2
        · exact heq
        · have := e d.1
          rw [read_of_lt_all (m := c :: m)
            (fun x hx => by rcases List.mem_cons.mp hx with rfl | hx
                            · exact hgt
                            · exact Nat.lt_trans hgt (hc x hx)), read, if_pos rfl] at this
          exact absurd this.symm (h'.2 d (by simp)).2
      have val : c.2 = d.2 := by simpa [read, key] using e c.1
      have tail : m = m' := by
        refine ih ⟨hm, fun x hx => h.2 x (by simp [hx])⟩ ⟨hm', fun x hx => h'.2 x (by simp [hx])⟩ fun a => ?_
        by_cases ha : c.1 = a
        · subst ha
          rw [read_of_lt_all hc, read_of_lt_all fun x hx => key ▸ hd x hx]
        · simpa [read, ha, show d.1 ≠ a from key ▸ ha] using e a
      rw [show c = d from Prod.ext key val, tail]

end Memory

namespace State

variable {s : State}

theorem readByte_writeByte_same (h : s.mem.wf s.params) : (s.writeByte a b).readByte a = b :=
  Memory.read_write_same h

theorem readByte_writeByte_ne (h : a' ≠ a) : (s.writeByte a b).readByte a' = s.readByte a' :=
  Memory.read_write_ne h

theorem wf_writeByte (h : s.mem.wf s.params) (ha : a < Config.memSize) :
    (s.writeByte a b).mem.wf (s.writeByte a b).params :=
  Memory.wf_write h ha

/-- A store of bytes changes memory and nothing else. -/
theorem writeBytes_eq (bs : List Byte) (a : Nat) (s : State) :
    s.writeBytes a bs = { s with mem := (s.writeBytes a bs).mem } := by
  induction bs generalizing a s with
  | nil => rfl
  | cons b bs ih => exact ih (a + 1) (s.writeByte a b)

@[simp] theorem writeBytes_params (bs : List Byte) : (s.writeBytes a bs).params = s.params := by
  rw [writeBytes_eq]

theorem wf_writeBytes (bs : List Byte) (a : Nat) (s : State) (h : s.mem.wf s.params)
    (ha : a + bs.length ≤ Config.memSize) : (s.writeBytes a bs).mem.wf s.params := by
  induction bs generalizing a s with
  | nil => exact h
  | cons b bs ih =>
    rw [List.length_cons] at ha
    exact ih (a + 1) (s.writeByte a b) (wf_writeByte h (by omega)) (by omega)

/-- Outside the stored bytes, memory reads as before. -/
theorem readByte_writeBytes_outside (bs : List Byte) (a : Nat) (s : State)
    (h : a' < a ∨ a + bs.length ≤ a') : (s.writeBytes a bs).readByte a' = s.readByte a' := by
  induction bs generalizing a s with
  | nil => rfl
  | cons b bs ih =>
    rw [List.length_cons] at h
    rw [writeBytes, ih (a + 1) (s.writeByte a b) (by omega), readByte_writeByte_ne (by omega)]

/-- The stored bytes read back. -/
theorem readByte_writeBytes_inside (bs : List Byte) (a : Nat) (s : State) (h : s.mem.wf s.params)
    (ha : a + bs.length ≤ Config.memSize) (j : Nat) (hj : j < bs.length) :
    (s.writeBytes a bs).readByte (a + j) = bs[j] := by
  induction bs generalizing a s j with
  | nil => simp at hj
  | cons b bs ih =>
    rw [List.length_cons] at ha hj
    cases j with
    | zero =>
      rw [writeBytes, readByte_writeBytes_outside bs (a + 1) _ (by omega)]
      exact readByte_writeByte_same h
    | succ j =>
      have := ih (a + 1) (s.writeByte a b) (wf_writeByte h (by omega)) (by omega) j (by omega)
      rw [writeBytes, show a + (j + 1) = a + 1 + j by omega, this]
      rfl

end State

end Sys2Proof.Machine
end

