-- ==== Sys2Proof/Laws/Ops.lean ====
section
/-! SUPPORT. What each shared operation can do, said once. -/

namespace Sys2Proof.Machine

variable {s t : State}

/-! ### Registers -/

@[simp] theorem reg_setReg_same (x : Reg) (b : Byte) : (s.setReg x b).reg x = b := by
  simp [State.reg, State.setReg]

theorem reg_setReg_ne {x j : Reg} (b : Byte) (h : j ≠ x) : (s.setReg x b).reg j = s.reg j := by
  have : x.val ≠ j.val := fun e => h (Fin.ext e.symm)
  simp [State.reg, State.setReg, this]

theorem v_set_same (v : Vector Byte 16) (x : Reg) (b : Byte) : (v.set x.val b)[x.val] = b := by simp

theorem v_set_ne (v : Vector Byte 16) {x j : Reg} (b : Byte) (h : j ≠ x) :
    (v.set x.val b)[j.val] = v[j.val] := by
  have : x.val ≠ j.val := fun e => h (Fin.ext e.symm)
  simp [this]

/-- R147: after the two writes VF holds the flag, whatever x is. -/
theorem writeResultFlag_vf (x : Reg) (r : Byte) (f : Bool) :
    (s.writeResultFlag x r f).reg regVF = flagByte f := by
  simp [State.writeResultFlag]

theorem writeResultFlag_x {x : Reg} (r : Byte) (f : Bool) (h : x ≠ regVF) :
    (s.writeResultFlag x r f).reg x = r := by
  simp [State.writeResultFlag, reg_setReg_ne _ h]

theorem writeResultFlag_other {x j : Reg} (r : Byte) (f : Bool) (hx : j ≠ x) (hf : j ≠ regVF) :
    (s.writeResultFlag x r f).reg j = s.reg j := by
  simp [State.writeResultFlag, reg_setReg_ne _ hx, reg_setReg_ne _ hf]

/-- The two writes of a flag-setting instruction touch V alone. -/
theorem writeResultFlag_eq (x : Reg) (r : Byte) (f : Bool) :
    s.writeResultFlag x r f = { s with v := (s.writeResultFlag x r f).v } := rfl

/-- A flag that a comparison decides. -/
theorem flagByte_decide (q : Prop) [Decidable q] : flagByte (decide q) = if q then 1 else 0 := by
  by_cases h : q <;> simp [flagByte, h]

/-- R235: which registers LD Vx,[I] loads. -/
theorem loadedRegs_get (x j : Reg) :
    (s.loadedRegs x)[j.val] = if j ≤ x then s.readByte (s.base + j.val) else s.reg j := by
  simp [State.loadedRegs]

theorem regBlock_length (x : Reg) : (s.regBlock x).length = x.val + 1 := by
  have := x.isLt
  simp [State.regBlock]

/-- R234: which byte LD [I],Vx stores at I + j. -/
theorem regBlock_get (x : Reg) (j : Nat) (h : j < (s.regBlock x).length) :
    (s.regBlock x)[j] = s.v[j]'(by rw [regBlock_length] at h; omega) := by
  simp [State.regBlock]

/-! ### The PC sequencer -/

theorem advance_eq : s.advance = { s with pc := s.pc + 2#16 } := rfl

theorem skipIf_eq (c : Bool) :
    s.skipIf c = { s with pc := if c then s.pc + 4#16 else s.pc + 2#16 } := by
  cases c <;> rfl

/-! ### Faults -/

theorem outOfRange_iff (base len : Nat) : outOfRange base len = true ↔ 0 < len ∧ 4096 ≤ base + (len - 1) := by
  simp [outOfRange]

/-- All a range check can do: the fault, or the instruction's own next state. -/
theorem guardRange_cases (base len : Nat) (s n : State) :
    (outOfRange base len = true ∧ guardRange base len s n = .next (s.raise .memRange (max base 4096))) ∨
    (outOfRange base len = false ∧ guardRange base len s n = .next n) := by
  unfold guardRange
  cases h : outOfRange base len
  · exact .inr ⟨rfl, rfl⟩
  · exact .inl ⟨rfl, rfl⟩

/-! ### The call stack -/

/-- All a push can do (R160). -/
theorem push_cases (w : Word) :
    (s.sp.val = 16 ∧ s.push w = none) ∨
    ∃ h : s.sp.val < 16,
      s.push w = some { s with stack := s.stack.set s.sp.val w, sp := ⟨s.sp.val + 1, by omega⟩ } := by
  by_cases h : s.sp.val < 16
  · exact .inr ⟨h, by simp [State.push, h, State.setStack]⟩
  · exact .inl ⟨by have := s.sp.isLt; omega, by simp [State.push, h]⟩

/-- All a pop can do (R161). -/
theorem pop_cases :
    (s.sp.val = 0 ∧ s.pop = none) ∨
    ∃ h : 0 < s.sp.val,
      s.pop = some (s.stack[s.sp.val - 1], { s with sp := ⟨s.sp.val - 1, by omega⟩ }) := by
  by_cases h : 0 < s.sp.val
  · exact .inr ⟨h, by simp [State.pop, h, State.setStack]⟩
  · exact .inl ⟨by omega, by simp [State.pop, h]⟩

/-! ### Fetch and step -/

theorem fetch_eq_some (h : s.pc.toNat + 1 < 4096) :
    s.fetch = some (wordOfBytes (s.readByte s.pc.toNat) (s.readByte (s.pc.toNat + 1))) := if_pos h

theorem fetch_eq_none (h : 4096 ≤ s.pc.toNat + 1) : s.fetch = none :=
  if_neg (by simp only [Config.memSize]; omega)

/-- All a step can do (R140). -/
theorem step_cases (s : State) :
    (s.halted = true ∧ step s = .next s) ∨
    (s.halted = false ∧ 4096 ≤ s.pc.toNat + 1 ∧
      step s = .next (s.lock.raise .fetchError (max s.pc.toNat 4096))) ∨
    ∃ op, s.halted = false ∧ s.pc.toNat + 1 < 4096 ∧ s.lock.fetch = some op ∧
      ((∃ i, decode op = .instr i ∧ step s = exec i s.lock) ∨
       (decode op = .unknown op ∧ step s = .next { s.lock with pc := s.pc + 2#16 })) := by
  unfold step
  cases hh : s.halted with
  | true => exact .inl ⟨rfl, by simp⟩
  | false =>
    refine .inr ?_
    by_cases hp : s.pc.toNat + 1 < 4096
    · refine .inr ⟨_, rfl, hp, fetch_eq_some (s := s.lock) hp, ?_⟩
      rw [fetch_eq_some (s := s.lock) hp]
      generalize wordOfBytes _ _ = op
      cases hd : decode op with
      | instr i => exact .inl ⟨i, rfl, by simp [hd]⟩
      | unknown w =>
        exact .inr ⟨by rw [decode_unknown hd], by simp [hd]; rfl⟩
    · refine .inl ⟨rfl, by omega, ?_⟩
      rw [fetch_eq_none (s := s.lock) (by simpa using hp)]
      rfl

/-! ### Keys -/

/-- R295: no key is found exactly when the latch is clear. -/
theorem lowestKey_eq_none_iff : s.lowestKey = none ↔ ∀ k < 16, s.keyHeld k = false := by
  simp [State.lowestKey]

/-- R295: the key found is held, and no lower one is. -/
theorem lowestKey_eq_some {k : Nat} (h : s.lowestKey = some k) :
    k < 16 ∧ s.keyHeld k = true ∧ ∀ j < k, s.keyHeld j = false := by
  unfold State.lowestKey at h
  have h1 := List.find?_some h
  have h2 := List.mem_of_find?_eq_some h
  refine ⟨List.mem_range.mp h2, h1, fun j hj => ?_⟩
  have hk := List.mem_range.mp h2
  obtain ⟨-, i, hi, hik, hlt⟩ := List.find?_eq_some_iff_getElem.mp h
  simp at hik hlt
  subst hik
  simpa using hlt j hj

/-! ### The host operations -/

theorem countDown_toNat (b : Byte) : (countDown b).toNat = b.toNat - 1 := by
  unfold countDown
  split
  · subst b
    rfl
  · rename_i h
    have : b.toNat ≠ 0 := fun e => h (BitVec.eq_of_toNat_eq (by simpa using e))
    have := b.isLt
    rw [BitVec.toNat_sub]
    simp
    omega

end Sys2Proof.Machine
end

