-- ==== Sys2Proof/Laws/PerInstr.lean ====
section
/-! SUPPORT. Statements made of every instruction, one lemma per constructor. -/

namespace Sys2Proof.Laws.Codec

/-- The word an instruction is encoded as is canonical (30_encoding.md R109) and is selected by the instruction's own row of
the opcode map (R105). -/
def Statement (i : Instr) : Prop :=
  canonicalWord (encode i) = true ∧ selects (encode i) (rowOf i) = true

theorem of_A (f : BitVec 4) (nnn : Addr) (m : Word)
    (hc : f ≠ 0x5#4 ∧ f ≠ 0x9#4 ∧ f ≠ 0x8#4) (h : encodeA f 0 = m) :
    canonicalWord (encodeA f nnn) = true ∧ selects (encodeA f nnn) (0xF000#16, m) = true := by
  obtain ⟨h5, h9, h8⟩ := hc
  refine ⟨?_, decide_eq_true ((and_F000 _).trans (by rw [familyField_encodeA]; exact h))⟩
  simp only [canonicalWord, and_F000, and_F00F, familyField_encodeA,
    show 0x5000#16 = encodeA 0x5#4 0 from rfl, show 0x9000#16 = encodeA 0x9#4 0 from rfl,
    show 0x8006#16 = encodeXY 0x8#4 0 0 0x6#4 from rfl, show 0x800E#16 = encodeXY 0x8#4 0 0 0xE#4 from rfl,
    encodeA_inj, encodeXY_inj]
  simp [h5, h9, h8]

theorem of_XK (f : BitVec 4) (x : Reg) (kk : Byte) (m : Word)
    (hc : f ≠ 0x5#4 ∧ f ≠ 0x9#4 ∧ f ≠ 0x8#4) (h : encodeA f 0 = m) :
    canonicalWord (encodeXK f x kk) = true ∧ selects (encodeXK f x kk) (0xF000#16, m) = true :=
  of_A f _ m hc h

theorem of_X (f : BitVec 4) (x : Reg) (kk : Byte) (m : Word)
    (hc : f ≠ 0x5#4 ∧ f ≠ 0x9#4 ∧ f ≠ 0x8#4) (h : encodeXK f 0 kk = m) :
    canonicalWord (encodeXK f x kk) = true ∧ selects (encodeXK f x kk) (0xF0FF#16, m) = true :=
  ⟨(of_XK f x kk (encodeA f 0) hc rfl).1, by simp [selects, and_F0FF, h]⟩

theorem of_XY (x y : Reg) (s : BitVec 4) (m : Word) (hy : s = 0x6#4 ∨ s = 0xE#4 → y = 0)
    (h : encodeXY 0x8#4 0 0 s = m) :
    canonicalWord (encodeXY 0x8#4 x y s) = true ∧ selects (encodeXY 0x8#4 x y s) (0xF00F#16, m) = true := by
  refine ⟨?_, by simp [selects, and_F00F, h]⟩
  simp only [canonicalWord, and_F000, and_F00F, and_00F0, familyField_encodeXY, lowNibble_encodeXY, yField_encodeXY,
    show 0x5000#16 = encodeA 0x5#4 0 from rfl, show 0x9000#16 = encodeA 0x9#4 0 from rfl,
    show 0x8006#16 = encodeXY 0x8#4 0 0 0x6#4 from rfl, show 0x800E#16 = encodeXY 0x8#4 0 0 0xE#4 from rfl,
    encodeA_inj, encodeXY_inj]
  by_cases hs : s = 0x6#4 ∨ s = 0xE#4
  · simp [hs, hy hs]
    decide
  · simp [hs]

theorem of_pair (f : BitVec 4) (x y : Reg) (m : Word) (hf : f = 0x5#4 ∨ f = 0x9#4) (h : encodeA f 0 = m) :
    canonicalWord (encodeXY f x y 0) = true ∧ selects (encodeXY f x y 0) (0xF000#16, m) = true := by
  refine ⟨?_, decide_eq_true ((and_F000 _).trans (by rw [familyField_encodeXY]; exact h))⟩
  simp only [canonicalWord, and_F000, and_000F, familyField_encodeXY, lowNibble_encodeXY,
    show 0x5000#16 = encodeA 0x5#4 0 from rfl, show 0x9000#16 = encodeA 0x9#4 0 from rfl, encodeA_inj]
  simp [hf]
  decide

theorem of_XYN (x y n : Fin 16) :
    canonicalWord (encodeXY 0xD#4 x y (nibble n)) = true ∧
      selects (encodeXY 0xD#4 x y (nibble n)) (0xF000#16, 0xD000#16) = true :=
  of_A 0xD#4 _ _ (by decide) (by decide)

theorem cls : Statement .cls := ⟨by decide, by decide⟩
theorem ret : Statement .ret := ⟨by decide, by decide⟩
theorem jp (nnn : Addr) : Statement (.jp nnn) := of_A 0x1#4 nnn _ (by decide) (by decide)
theorem call (nnn : Addr) : Statement (.call nnn) := of_A 0x2#4 nnn _ (by decide) (by decide)
theorem seVxKk (x : Reg) (kk : Byte) : Statement (.seVxKk x kk) := of_XK 0x3#4 x kk _ (by decide) (by decide)
theorem sneVxKk (x : Reg) (kk : Byte) : Statement (.sneVxKk x kk) := of_XK 0x4#4 x kk _ (by decide) (by decide)
theorem seVxVy (x : Reg) (y : Reg) : Statement (.seVxVy x y) := of_pair 0x5#4 x y _ (by decide) (by decide)
theorem ldVxKk (x : Reg) (kk : Byte) : Statement (.ldVxKk x kk) := of_XK 0x6#4 x kk _ (by decide) (by decide)
theorem addVxKk (x : Reg) (kk : Byte) : Statement (.addVxKk x kk) := of_XK 0x7#4 x kk _ (by decide) (by decide)
theorem ldVxVy (x : Reg) (y : Reg) : Statement (.ldVxVy x y) := of_XY x y 0x0#4 _ (by simp) (by decide)
theorem orVxVy (x : Reg) (y : Reg) : Statement (.orVxVy x y) := of_XY x y 0x1#4 _ (by simp) (by decide)
theorem andVxVy (x : Reg) (y : Reg) : Statement (.andVxVy x y) := of_XY x y 0x2#4 _ (by simp) (by decide)
theorem xorVxVy (x : Reg) (y : Reg) : Statement (.xorVxVy x y) := of_XY x y 0x3#4 _ (by simp) (by decide)
theorem addVxVy (x : Reg) (y : Reg) : Statement (.addVxVy x y) := of_XY x y 0x4#4 _ (by simp) (by decide)
theorem subVxVy (x : Reg) (y : Reg) : Statement (.subVxVy x y) := of_XY x y 0x5#4 _ (by simp) (by decide)
theorem shrVx (x : Reg) : Statement (.shrVx x) := of_XY x 0 0x6#4 _ (by simp) (by decide)
theorem subnVxVy (x : Reg) (y : Reg) : Statement (.subnVxVy x y) := of_XY x y 0x7#4 _ (by simp) (by decide)
theorem shlVx (x : Reg) : Statement (.shlVx x) := of_XY x 0 0xE#4 _ (by simp) (by decide)
theorem sneVxVy (x : Reg) (y : Reg) : Statement (.sneVxVy x y) := of_pair 0x9#4 x y _ (by decide) (by decide)
theorem ldIAddr (nnn : Addr) : Statement (.ldIAddr nnn) := of_A 0xA#4 nnn _ (by decide) (by decide)
theorem jpV0Addr (nnn : Addr) : Statement (.jpV0Addr nnn) := of_A 0xB#4 nnn _ (by decide) (by decide)
theorem rndVxKk (x : Reg) (kk : Byte) : Statement (.rndVxKk x kk) := of_XK 0xC#4 x kk _ (by decide) (by decide)
theorem drwVxVyN (x : Reg) (y : Reg) (n : Fin 16) : Statement (.drwVxVyN x y n) := of_XYN x y n
theorem skpVx (x : Reg) : Statement (.skpVx x) := of_X 0xE#4 x 0x9E#8 _ (by decide) (by decide)
theorem sknpVx (x : Reg) : Statement (.sknpVx x) := of_X 0xE#4 x 0xA1#8 _ (by decide) (by decide)
theorem ldVxDt (x : Reg) : Statement (.ldVxDt x) := of_X 0xF#4 x 0x07#8 _ (by decide) (by decide)
theorem ldVxK (x : Reg) : Statement (.ldVxK x) := of_X 0xF#4 x 0x0A#8 _ (by decide) (by decide)
theorem ldDtVx (x : Reg) : Statement (.ldDtVx x) := of_X 0xF#4 x 0x15#8 _ (by decide) (by decide)
theorem ldStVx (x : Reg) : Statement (.ldStVx x) := of_X 0xF#4 x 0x18#8 _ (by decide) (by decide)
theorem addIVx (x : Reg) : Statement (.addIVx x) := of_X 0xF#4 x 0x1E#8 _ (by decide) (by decide)
theorem ldFVx (x : Reg) : Statement (.ldFVx x) := of_X 0xF#4 x 0x29#8 _ (by decide) (by decide)
theorem ldBVx (x : Reg) : Statement (.ldBVx x) := of_X 0xF#4 x 0x33#8 _ (by decide) (by decide)
theorem ldMemVx (x : Reg) : Statement (.ldMemVx x) := of_X 0xF#4 x 0x55#8 _ (by decide) (by decide)
theorem ldVxMem (x : Reg) : Statement (.ldVxMem x) := of_X 0xF#4 x 0x65#8 _ (by decide) (by decide)

/-- Every instruction, by its constructor's lemma. -/
theorem all (i : Instr) : Statement i := by
  cases i with
  | cls => exact cls
  | ret => exact ret
  | jp nnn => exact jp nnn
  | call nnn => exact call nnn
  | seVxKk x kk => exact seVxKk x kk
  | sneVxKk x kk => exact sneVxKk x kk
  | seVxVy x y => exact seVxVy x y
  | ldVxKk x kk => exact ldVxKk x kk
  | addVxKk x kk => exact addVxKk x kk
  | ldVxVy x y => exact ldVxVy x y
  | orVxVy x y => exact orVxVy x y
  | andVxVy x y => exact andVxVy x y
  | xorVxVy x y => exact xorVxVy x y
  | addVxVy x y => exact addVxVy x y
  | subVxVy x y => exact subVxVy x y
  | shrVx x => exact shrVx x
  | subnVxVy x y => exact subnVxVy x y
  | shlVx x => exact shlVx x
  | sneVxVy x y => exact sneVxVy x y
  | ldIAddr nnn => exact ldIAddr nnn
  | jpV0Addr nnn => exact jpV0Addr nnn
  | rndVxKk x kk => exact rndVxKk x kk
  | drwVxVyN x y n => exact drwVxVyN x y n
  | skpVx x => exact skpVx x
  | sknpVx x => exact sknpVx x
  | ldVxDt x => exact ldVxDt x
  | ldVxK x => exact ldVxK x
  | ldDtVx x => exact ldDtVx x
  | ldStVx x => exact ldStVx x
  | addIVx x => exact addIVx x
  | ldFVx x => exact ldFVx x
  | ldBVx x => exact ldBVx x
  | ldMemVx x => exact ldMemVx x
  | ldVxMem x => exact ldVxMem x

end Sys2Proof.Laws.Codec
end

