-- ==== Sys2Proof/Laws/Screen.lean ====
section
/-! SUPPORT. The cells of a display, and what drawing one cell leaves in each. -/

namespace Sys2Proof.Machine

namespace Display

@[simp] theorem cell_clear (r : Fin 32) (c : Fin 64) : clear.cell r c = false := by
  simp [cell, clear]

/-- A write of one cell, read back at any cell. -/
theorem cell_setCell (d : Display) (r r' : Fin 32) (c c' : Fin 64) (b : Bool) :
    (d.setCell r c b).cell r' c' = if r' = r ∧ c' = c then b else d.cell r' c' := by
  have hr : r.val = r'.val ↔ r' = r := by rw [Fin.ext_iff, eq_comm]
  have hc : c.val = c'.val ↔ c' = c := by rw [Fin.ext_iff, eq_comm]
  unfold setCell cell
  rw [Vector.getElem_set]
  by_cases h1 : r' = r
  · subst h1
    simp only [if_true, Vector.getElem_set, hc, true_and]
  · simp [hr, h1]

/-- Two displays with the same cells are the same. -/
theorem ext_cell {d e : Display} (h : ∀ r c, d.cell r c = e.cell r c) : d = e := by
  apply Vector.ext
  intro i hi
  apply Vector.ext
  intro j hj
  exact h ⟨i, hi⟩ ⟨j, hj⟩

end Display

/-- One step of the blit on the display: the cell is XORed, the others stay. -/
theorem cell_plot (r r' : Fin 32) (c c' : Fin 64) (b : Bool) (p : Blit) :
    Display.cell (plot r c b p).1 r' c' =
      if r' = r ∧ c' = c then (Display.cell p.1 r c ^^ b) else Display.cell p.1 r' c' :=
  Display.cell_setCell ..

/-- One step of the blit on the collision variable: it only ever rises. -/
theorem collision_plot (r : Fin 32) (c : Fin 64) (b : Bool) (p : Blit) :
    (plot r c b p).2 = (p.2 || (b && Display.cell p.1 r c)) := rfl

theorem blit_append (cx cy : Nat) (xs ys : List Byte) (p : Blit) :
    blit cx cy (xs ++ ys) p = blit cx (cy + xs.length) ys (blit cx cy xs p) := by
  induction xs generalizing cy p with
  | nil => rfl
  | cons x xs ih =>
    rw [List.cons_append, blit, ih, blit, List.length_cons]
    congr 1
    omega

end Sys2Proof.Machine
end

