-- ==== Sys2Proof/Tests/Slice0.lean ====
section
/-! SUPPORT. Tests with expected results from the spec's own vectors (95_test_vectors.md, cited by id), the smoke tests of
the well-formedness checks, and one witness for every statement that has hypotheses. -/

namespace Sys2Proof.Tests

-- One test at a time: tests that the kernel evaluates wait for each other, and each waiting one would hold a thread.
set_option Elab.async false

open Sys2Proof.Machine

/-! ## Decode: words written out from the spec's encodings (30_encoding.md R104, R105; vectors D-1 to D-19) -/

theorem test_decode_flow :
    decode 0x00EE#16 = .instr .ret ∧ decode 0x1ABC#16 = .instr (.jp 0xABC) ∧
    decode 0x2400#16 = .instr (.call 0x400) ∧ decode 0x3012#16 = .instr (.seVxKk 0 0x12) ∧
    decode 0x4013#16 = .instr (.sneVxKk 0 0x13) ∧ decode 0x5121#16 = .instr (.seVxVy 1 2) ∧
    decode 0x912F#16 = .instr (.sneVxVy 1 2) ∧ decode 0xBABC#16 = .instr (.jpV0Addr 0xABC) := by decide

theorem test_decode_alu :
    decode 0x6A42#16 = .instr (.ldVxKk 10 0x42) ∧ decode 0x70FF#16 = .instr (.addVxKk 0 0xFF) ∧
    decode 0x8130#16 = .instr (.ldVxVy 1 3) ∧ decode 0x8011#16 = .instr (.orVxVy 0 1) ∧
    decode 0x8012#16 = .instr (.andVxVy 0 1) ∧ decode 0x8013#16 = .instr (.xorVxVy 0 1) ∧
    decode 0x8014#16 = .instr (.addVxVy 0 1) ∧ decode 0x8015#16 = .instr (.subVxVy 0 1) ∧
    decode 0x8AB6#16 = .instr (.shrVx 10) ∧ decode 0x8017#16 = .instr (.subnVxVy 0 1) ∧
    decode 0x820E#16 = .instr (.shlVx 2) ∧ decode 0xC00F#16 = .instr (.rndVxKk 0 0x0F) := by decide

theorem test_decode_index_memory :
    decode 0xA123#16 = .instr (.ldIAddr 0x123) ∧ decode 0xF11E#16 = .instr (.addIVx 1) ∧
    decode 0xF029#16 = .instr (.ldFVx 0) ∧ decode 0xF033#16 = .instr (.ldBVx 0) ∧
    decode 0xF255#16 = .instr (.ldMemVx 2) ∧ decode 0xFF65#16 = .instr (.ldVxMem 15) := by decide

theorem test_decode_display_timers_input :
    decode 0x00E0#16 = .instr .cls ∧ decode 0xD12F#16 = .instr (.drwVxVyN 1 2 15) ∧
    decode 0xF307#16 = .instr (.ldVxDt 3) ∧ decode 0xF00A#16 = .instr (.ldVxK 0) ∧
    decode 0xF015#16 = .instr (.ldDtVx 0) ∧ decode 0xF018#16 = .instr (.ldStVx 0) ∧
    decode 0xE19E#16 = .instr (.skpVx 1) ∧ decode 0xE0A1#16 = .instr (.sknpVx 0) := by decide

theorem test_decode_unknown :
    decode 0x00E1#16 = .unknown 0x00E1#16 ∧ decode 0x01E0#16 = .unknown 0x01E0#16 ∧
    decode 0x0000#16 = .unknown 0x0000#16 ∧ decode 0x8ABF#16 = .unknown 0x8ABF#16 ∧
    decode 0xE19F#16 = .unknown 0xE19F#16 ∧ decode 0xF0FF#16 = .unknown 0xF0FF#16 := by decide

theorem test_table_word : decodeTableWord 16 0xD12F = some (.drwVxVyN 1 2 15) := by decide

/-! ## Well-formedness: what each check refuses -/

theorem test_canonical_refuses_se : canonicalWord 0x5121#16 = false ∧ canonicalWord 0x5120#16 = true := by decide
theorem test_canonical_refuses_sne : canonicalWord 0x912F#16 = false ∧ canonicalWord 0x9120#16 = true := by decide
theorem test_canonical_refuses_shr : canonicalWord 0x8AB6#16 = false ∧ canonicalWord 0x8A06#16 = true := by decide
theorem test_canonical_refuses_shl : canonicalWord 0x8ABE#16 = false ∧ canonicalWord 0x8A0E#16 = true := by decide
theorem test_image_too_long : imageFits (List.replicate 3585 0#8) = false := by
  rw [imageFits, List.length_replicate]
  rfl
theorem test_image_longest : imageFits (List.replicate 3584 0#8) = true := by
  rw [imageFits, List.length_replicate]
  rfl

/-! ## One step of one instruction -/

/-- The reset state with a word at PC. -/
def start (w : Nat) : State := State.reset.withFetchWord 16 w

/-- Whether a step answers a next state with a property. -/
def steps (s : State) (q : State → Bool) : Bool :=
  match step s with
  | .next t => q t
  | .fault _ => false
  | .refused _ => false

/-- A fault of the spec: halted with this code number and address, PC where it was. -/
def faulted (code addr pc : Nat) (t : State) : Bool :=
  t.halted && t.faultCode.number.toNat == code && t.faultAddr.toNat == addr && t.pc.toNat == pc

/-- PC and one register. -/
def pcReg (pc : Nat) (x : Reg) (b : Nat) (t : State) : Bool := t.pc.toNat == pc && (t.reg x).toNat == b

/-- A register and VF. -/
def regFlag (x : Reg) (b f : Nat) (t : State) : Bool := (t.reg x).toNat == b && (t.reg regVF).toNat == f

/-- T1 -/
theorem test_unknown :
    steps (start 0x0123) (fun t => t.pc.toNat == 0x202 && t.loadLock) = true := by decide +kernel

/-- T7 -/
theorem test_fetch_beyond_memory :
    steps ({ State.reset with pc := 0xFFF }) (faulted 1 0x1000 0xFFF) = true := by decide +kernel

/-- T8 -/
theorem test_odd_pc :
    steps (({ State.reset with pc := 0x201 } : State).withFetchWord 16 0x6007) (pcReg 0x203 0 7) = true := by decide +kernel

/-- T11 -/
theorem test_halted_step :
    steps (({ start 0x60FF with halted := true, faultCode := .keyRange } : State)) (fun t => t.pc.toNat == 0x200 && (t.reg 0).toNat == 0) = true := by decide +kernel

/-- T21 -/
theorem test_jp_odd :
    steps (start 0x1201) (fun t => t.pc.toNat == 0x201) = true := by decide +kernel

/-- T24 -/
theorem test_call :
    steps (start 0x2400) (fun t => t.sp.val == 1 && t.stack[0].toNat == 0x202 && t.pc.toNat == 0x400) = true := by decide +kernel

/-- T27 -/
theorem test_call_overflow :
    steps (({ start 0x2300 with sp := 16 } : State)) (fun t => faulted 2 0 0x200 t && t.sp.val == 16) = true := by decide +kernel

/-- T25 -/
theorem test_ret :
    steps (({ start 0x00EE with sp := 1, stack := State.reset.stack.set 0 0x202 } : State)) (fun t => t.pc.toNat == 0x202 && t.sp.val == 0 && t.stack[0].toNat == 0x202) = true := by decide +kernel

/-- T26 -/
theorem test_ret_underflow :
    steps (start 0x00EE) (faulted 3 0 0x200) = true := by decide +kernel

/-- T39 -/
theorem test_seVxKk_vf :
    steps ((start 0x3F01).setReg 15 1) (fun t => t.pc.toNat == 0x204) = true := by decide +kernel

/-- T32 -/
theorem test_sneVxKk :
    steps ((start 0x4012).setReg 0 0x12) (fun t => t.pc.toNat == 0x202) = true := by decide +kernel

/-- T35 -/
theorem test_seVxVy_low_nibble :
    steps (((start 0x512F).setReg 1 7).setReg 2 7) (fun t => t.pc.toNat == 0x204) = true := by decide +kernel

/-- T37 -/
theorem test_sneVxVy :
    steps (((start 0x9120).setReg 1 7).setReg 2 8) (fun t => t.pc.toNat == 0x204) = true := by decide +kernel

/-- T43 -/
theorem test_jpV0_beyond_memory :
    steps ((start 0xBFFF).setReg 0 0xFF) (fun t => t.pc.toNat == 0x10FE && !t.halted) = true := by decide +kernel

/-- T50 -/
theorem test_ldVxKk :
    steps (start 0x6A42) (pcReg 0x202 10 0x42) = true := by decide +kernel

/-- T52 -/
theorem test_addVxKk_no_flag :
    steps (((start 0x70FF).setReg 0 1).setReg 15 0x77) (regFlag 0 0 0x77) = true := by decide +kernel

/-- T54 -/
theorem test_ldVxVy :
    steps ((start 0x8130).setReg 3 0x42) (pcReg 0x202 1 0x42) = true := by decide +kernel

/-- T55 -/
theorem test_orVxVy :
    steps ((((start 0x8011).setReg 0 0xF0).setReg 1 0x0F).setReg 15 0x55) (regFlag 0 0xFF 0x55) = true := by decide +kernel

/-- T56 -/
theorem test_andVxVy :
    steps ((((start 0x8012).setReg 0 0xF0).setReg 1 0x3C).setReg 15 0x55) (regFlag 0 0x30 0x55) = true := by decide +kernel

/-- T57 -/
theorem test_xorVxVy :
    steps (((start 0x8013).setReg 0 0xF0).setReg 1 0x3C) (regFlag 0 0xCC 0) = true := by decide +kernel

/-- T62 -/
theorem test_addVxVy_carry :
    steps (((start 0x8014).setReg 0 0xFF).setReg 1 0xFF) (regFlag 0 0xFE 1) = true := by decide +kernel

/-- T65 -/
theorem test_addVxVy_into_vf :
    steps (((start 0x8F14).setReg 15 0xFF).setReg 1 1) (regFlag 15 1 1) = true := by decide +kernel

/-- T69 -/
theorem test_subVxVy_equal :
    steps (((start 0x8015).setReg 0 5).setReg 1 5) (regFlag 0 0 0) = true := by decide +kernel

/-- T74 -/
theorem test_subVxVy_from_vf :
    steps (((start 0x80F5).setReg 0 5).setReg 15 7) (regFlag 0 0xFE 0) = true := by decide +kernel

/-- T75 -/
theorem test_subnVxVy :
    steps (((start 0x8017).setReg 0 3).setReg 1 5) (regFlag 0 2 1) = true := by decide +kernel

/-- T77 -/
theorem test_subnVxVy_equal :
    steps (((start 0x8017).setReg 0 9).setReg 1 9) (regFlag 0 0 0) = true := by decide +kernel

/-- T83 -/
theorem test_shrVx_ignores_y :
    steps (((start 0x8016).setReg 0 6).setReg 1 0xFF) (regFlag 0 3 0) = true := by decide +kernel

/-- T84 -/
theorem test_shrVx_vf :
    steps ((start 0x8F06).setReg 15 3) (regFlag 15 1 1) = true := by decide +kernel

/-- T87 -/
theorem test_shlVx :
    steps ((start 0x800E).setReg 0 0x7F) (regFlag 0 0xFE 0) = true := by decide +kernel

/-- T90 -/
theorem test_shlVx_vf :
    steps ((start 0x8F0E).setReg 15 0x81) (regFlag 15 1 1) = true := by decide +kernel

/-- T100 -/
theorem test_ldIAddr :
    steps (({ start 0xA123 with i := 0xFFFF } : State)) (fun t => t.i.toNat == 0x123) = true := by decide +kernel

/-- T104 -/
theorem test_addIVx :
    steps (({ (start 0xF01E).setReg 0 2 with i := 0xFFFF } : State)) (fun t => t.i.toNat == 1) = true := by decide +kernel

/-- T103 -/
theorem test_addIVx_masked :
    steps (({ (start 0xF01E).setReg 0 1 with i := 0xFFF, params := { defaultParams with iMask12 := true } } : State)) (fun t => t.i.toNat == 0) = true := by decide +kernel

/-- T106 -/
theorem test_ldFVx_high_nibble :
    steps ((start 0xF029).setReg 0 0x1F) (fun t => t.i.toNat == 75) = true := by decide +kernel

/-- E10 -/
theorem test_ldBVx :
    steps (({ (start 0xF033).setReg 0 157 with i := 0x300 } : State)) (fun t => (t.readBytes 0x300 3).map BitVec.toNat == [1, 5, 7] && t.pc.toNat == 0x202) = true := by decide +kernel

/-- T112 -/
theorem test_ldBVx_fault :
    steps (({ (start 0xF033).setReg 0 100 with i := 0xFFE } : State)) (fun t => faulted 4 0x1000 0x200 t && (t.readByte 0xFFE).toNat == 0) = true := by decide +kernel

/-- T114 -/
theorem test_ldMemVx_top :
    steps (({ (start 0xF055).setReg 0 0xAB with i := 0xFFF } : State)) (fun t => (t.readByte 0xFFF).toNat == 0xAB && t.i.toNat == 0xFFF) = true := by decide +kernel

/-- T115 -/
theorem test_ldMemVx_fault :
    steps (({ (start 0xF155).setReg 0 0xAB with i := 0xFFF } : State)) (fun t => faulted 4 0x1000 0x200 t && (t.readByte 0xFFF).toNat == 0) = true := by decide +kernel

/-- T117 -/
theorem test_ldVxMem_font :
    steps (start 0xF065) (pcReg 0x202 0 0xF0) = true := by decide +kernel

/-- T119 -/
theorem test_ldVxMem_fault :
    steps (({ start 0xF165 with i := 0xFFF } : State)) (faulted 4 0x1000 0x200) = true := by decide +kernel

/-- T130 -/
theorem test_cls :
    steps ((({ start 0x00E0 with disp := Display.setCell Display.clear 3 4 true } : State).setReg 15 0x33)) (fun t => !Display.cell t.disp 3 4 && (t.reg 15).toNat == 0x33) = true := by decide +kernel

/-- T132, T140 -/
theorem test_drw_wraps_and_sticks :
    steps (({ ((((start 0xD012).setReg 1 31).writeByte 0x300 0x80).writeByte 0x301 0x80) with i := 0x300, disp := Display.setCell Display.clear 31 0 true } : State)) (fun t => !Display.cell t.disp 31 0 && Display.cell t.disp 0 0 && (t.reg 15).toNat == 1) = true := by decide +kernel

/-- T141 -/
theorem test_drw_coordinate_from_vf :
    steps (({ ((start 0xDF01).setReg 15 5).writeByte 0x300 0x80 with i := 0x300 } : State)) (fun t => Display.cell t.disp 0 5 && (t.reg 15).toNat == 0) = true := by decide +kernel

/-- T153 -/
theorem test_ldVxDt :
    steps (({ start 0xF307 with dt := 0x3B } : State)) (fun t => pcReg 0x202 3 0x3B t && t.dt.toNat == 0x3B) = true := by decide +kernel

/-- T150 -/
theorem test_ldDtVx :
    steps ((start 0xF015).setReg 0 0x3C) (fun t => t.dt.toNat == 0x3C && (portTick t).dt.toNat == 0x3B) = true := by decide +kernel

/-- T154 -/
theorem test_ldStVx :
    steps ((start 0xF018).setReg 0 2) (fun t => (readSt t).toNat == 2) = true := by decide +kernel

/-- T156 -/
theorem test_skpVx_held :
    steps (portSetKeys 0x0020 ((start 0xE09E).setReg 0 5)) (fun t => t.pc.toNat == 0x204) = true := by decide +kernel

/-- T160 -/
theorem test_skpVx_fault :
    steps ((start 0xE09E).setReg 0 0x10) (faulted 5 0 0x200) = true := by decide +kernel

/-- T158 -/
theorem test_sknpVx_not_held :
    steps ((start 0xE0A1).setReg 0 5) (fun t => t.pc.toNat == 0x204) = true := by decide +kernel

/-- T161 -/
theorem test_sknpVx_fault :
    steps ((start 0xE0A1).setReg 0 0xFF) (faulted 5 0 0x200) = true := by decide +kernel

/-- T162 -/
theorem test_ldVxK_waits :
    steps (start 0xF10A) (pcReg 0x200 1 0) = true := by decide +kernel

/-- T163 -/
theorem test_ldVxK_lowest :
    steps (portSetKeys 0x0088 (start 0xF10A)) (pcReg 0x202 1 3) = true := by decide +kernel

/-- T91 to T93, for every draw: the result is the draw masked by kk. -/
theorem test_rndVxKk (s : State) :
    exec (.rndVxKk 0 0x0F) s =
      .next ({ s with draws := s.draws + 1 }.setReg 0 (Config.randomByte s.draws &&& 0x0F)).advance := rfl

/-! ## Host operations -/

/-- T151 -/
theorem test_tick_saturates :
    (portTick { State.reset with st := 5 }).dt = 0 ∧ (portTick { State.reset with st := 5 }).st = 4 := by decide

/-- T172 -/
theorem test_load_too_long :
    portLoad (List.replicate 3585 0#8) State.reset = (.loadError, State.reset) := by
  rw [portLoad, test_image_too_long]
  rfl

/-- T173 and T174: a second LOAD is refused. -/
theorem test_load_twice :
    (portLoad [0x12, 0x00] State.reset).1 = .ok ∧
    (portLoad [0x00, 0xE0] (portLoad [0x12, 0x00] State.reset).2).1 = .loadError := by decide +kernel

/-- T177 and T178 -/
theorem test_status_after_fault_and_reset :
    readStatus (portStep (start 0x00EE)) = { halted := true, faultCode := 3, faultAddr := 0 } ∧
    readStatus (portReset (portStep (start 0x00EE))) = { halted := false, faultCode := 0, faultAddr := 0 } := by
  decide +kernel

/-! ## Witnesses: for every statement with hypotheses, a state and operands that meet them together, at the edges of
their ranges -/

theorem witness_Reencoding :
    (decode 0x5121#16 = .instr (.seVxVy 1 2) ∧ canonicalWord 0x5121#16 = false) ∧
    (decode 0x8A06#16 = .instr (.shrVx 10) ∧ canonicalWord 0x8A06#16 = true) := by decide

theorem witness_StepHalted : ({ State.reset with halted := true } : State).halted = true := rfl

theorem witness_StepFetchFault :
    let s : State := { State.reset with pc := 4095 }
    s.halted = false ∧ 4096 ≤ s.pc.toNat + 1 := by decide

theorem witness_StepInstr :
    let s : State := { State.reset with pc := 4094 }.withFetchWord 16 0x6A42
    s.halted = false ∧ s.pc.toNat + 1 < 4096 ∧
      decode (wordOfBytes (s.readByte s.pc.toNat) (s.readByte (s.pc.toNat + 1))) = .instr (.ldVxKk 10 0x42) := by
  decide +kernel

theorem witness_StepUnknown :
    let s : State := start 0x0123
    s.halted = false ∧ s.pc.toNat + 1 < 4096 ∧
      decode (wordOfBytes (s.readByte s.pc.toNat) (s.readByte (s.pc.toNat + 1))) = .unknown 0x0123#16 := by
  decide +kernel

theorem witness_PcMoves :
    let s : State := { State.reset with pc := 4094 }
    raises (.jpV0Addr 0xFFF) s = none ∧ s.pc.toNat ≤ 4094 ∧ raises .ret s ≠ none := by decide

theorem witness_CallPushes : ({ State.reset with sp := 15 } : State).sp.val < 16 := by decide

theorem witness_CallOverflows : ({ State.reset with sp := 16 } : State).sp.val = 16 := rfl

theorem witness_RetPops : 0 < ({ State.reset with sp := 1 } : State).sp.val := by decide

theorem witness_RetUnderflows : State.reset.sp.val = 0 := rfl

theorem witness_CallThenRet :
    let s : State := { State.reset with sp := 15 }
    s.sp.val < 16 ∧ ∃ j : Fin 16, j.val < s.sp.val := by decide

theorem witness_OnlyDestinations :
    (∃ t, exec (.addVxVy 3 4) State.reset = .next t) ∧ destination (.addVxVy 3 4) 2 = false ∧
      ((2 : Reg) = 15 → writesFlag (.addVxVy 3 4) = false) := ⟨⟨_, rfl⟩, by decide⟩

theorem witness_BcdStores : ({ State.reset with i := 4093 } : State).i.toNat + 2 < 4096 ∧ State.reset.mem.wf defaultParams := by
  decide

theorem witness_BcdFaults : 4096 ≤ ({ State.reset with i := 4094 } : State).i.toNat + 2 := by decide

/-- For LD [I],Vx and LD Vx,[I]: the last address in range, and the first beyond it. -/
theorem witness_BlockTransfers :
    (({ State.reset with i := 4080 } : State).i.toNat + (15 : Reg).val < 4096 ∧ (15 : Reg) ≤ 15) ∧
    (({ State.reset with i := 4095 } : State).i.toNat + (0 : Reg).val < 4096 ∧ (0 : Reg) < 1) ∧
    4096 ≤ ({ State.reset with i := 4095 } : State).i.toNat + (1 : Reg).val := by decide

theorem witness_StoreThenLoad :
    let s : State := { State.reset with i := 4080 }
    s.mem.wf s.params ∧ s.i.toNat + (15 : Reg).val < 4096 := by decide

theorem witness_StoredBytesAreFetched :
    let s : State := { State.reset with i := 0x202 }
    s.mem.wf s.params ∧ s.i.toNat + (1 : Reg).val < 4096 ∧ (0 : Reg) ≤ 1 ∧ (1 : Reg) ≤ 1 ∧
      s.i.toNat + (0 : Reg).val = s.pc.toNat + 2 ∧ s.i.toNat + (1 : Reg).val = s.pc.toNat + 3 := by decide

theorem witness_DrwInRange :
    (let s : State := { State.reset with i := 0xFFFF }; let n : Fin 16 := 0
     n.val = 0 ∨ s.i.toNat + n.val ≤ 4096) ∧
    (let s : State := { State.reset with i := 4095 }; let n : Fin 16 := 1
     n.val = 0 ∨ s.i.toNat + n.val ≤ 4096) := by decide

/-- A set cell under the sprite, and a sprite that meets none: both cases of VF. -/
theorem witness_DrwCollision :
    (let s : State := { State.reset with disp := Display.setCell Display.clear 0 0 true }
     Display.cell s.disp 0 0 = true ∧ SpriteCovers s 0 0 1 0 0) ∧
    ¬ ∃ r c, Display.cell State.reset.disp r c = true ∧ SpriteCovers State.reset 0 0 1 r c := by
  refine ⟨⟨by decide +kernel, 0, by decide, 0, by decide, by decide +kernel⟩, fun ⟨r, c, h, _⟩ => ?_⟩
  rw [show State.reset.disp = Display.clear from rfl, Display.cell_clear] at h
  cases h

theorem witness_DrwBeyondMemory :
    let s : State := { State.reset with i := 4095 }
    0 < (2 : Fin 16).val ∧ 4096 ≤ s.i.toNat + (2 : Fin 16).val - 1 := by decide

/-- The font's first row, drawn at V0, V1 on the clear display. -/
theorem witness_DrawingTwice :
    ((0 : Reg) ≠ 15 ∧ (1 : Reg) ≠ 15 ∧ State.reset.i.toNat + (1 : Fin 16).val ≤ 4096) ∧
    (∀ r c, Display.cell State.reset.disp r c = false) ∧
    ∃ k < (1 : Fin 16).val, State.reset.readByte (State.reset.i.toNat + k) ≠ 0 :=
  ⟨by decide, fun r c => Display.cell_clear r c, 0, by decide, by decide +kernel⟩

theorem witness_KeySkips :
    ((State.reset.setReg 0 15).v[(0 : Reg).val]).toNat ≤ 15 ∧
    15 < ((State.reset.setReg 0 16).v[(0 : Reg).val]).toNat := by decide

theorem witness_KeyWait :
    (let s : State := { State.reset with key := 0x8000 }
     s.key.getLsbD (15 : Fin 16).val = true ∧ ∀ j < (15 : Fin 16).val, s.key.getLsbD j = false) ∧
    (let s : State := { State.reset with key := 0x0001 }
     s.key.getLsbD (0 : Fin 16).val = true ∧ ∀ j < (0 : Fin 16).val, s.key.getLsbD j = false) ∧
    ∀ j < 16, State.reset.key.getLsbD j = false := by decide

theorem witness_AwaitingAKey : awaitingKey (start 0xF10A) = true ∧ (0x8000 : BitVec 16) ≠ 0 := by decide +kernel

theorem witness_EachPiece :
    (∃ t, exec (.ldIAddr 0x123) State.reset = .next t ∧ t.i ≠ State.reset.i ∧ t.pc ≠ State.reset.pc) ∧
    (∃ t, exec (.ldDtVx 0) (State.reset.setReg 0 1) = .next t ∧ t.dt ≠ State.reset.dt) ∧
    (∃ t, exec (.addVxVy 0 1) (State.reset.setReg 15 7) = .next t ∧ t.v[15] ≠ (State.reset.setReg 15 7).v[15]) ∧
    ∃ t, exec .ret State.reset = .next t ∧ t.halted ≠ State.reset.halted :=
  ⟨⟨_, rfl, by decide, by decide⟩, ⟨_, rfl, by decide⟩, ⟨_, rfl, by decide⟩, _, rfl, by decide⟩

theorem witness_SoundTimer :
    (∃ x, Instr.ldStVx 3 = .ldStVx x) ∧ (¬ ∃ x, Instr.cls = .ldStVx x) ∧ ¬ ∃ x kk, Instr.cls = .rndVxKk x kk :=
  ⟨⟨3, rfl⟩, fun ⟨_, h⟩ => Instr.noConfusion h, fun ⟨_, _, h⟩ => Instr.noConfusion h⟩

theorem witness_FaultTable :
    raises (.ldVxMem 15) { State.reset with i := 4081 } = some (.memRange, 4096) ∧
    raises (.ldVxMem 15) { State.reset with i := 4080 } = none := by decide

theorem witness_FaultsArePrecise :
    ∃ t, step (start 0x00EE) = .next t ∧ (start 0x00EE).halted = false ∧ t.halted = true :=
  ⟨_, rfl, rfl, rfl⟩

theorem witness_HaltLasts :
    let s : State := { State.reset with halted := true, loadLock := true, faultCode := .keyRange }
    s.halted = true ∧ s.loadLock = true ∧ PortOp.reset ∉ [PortOp.step, .tick, .load [0], .setKeys 1] := by decide

/-- A state other than the reset state that meets the invariant and takes a step. -/
theorem witness_Invariant :
    let s : State := { State.reset with pc := 0x300, sp := 1, stack := State.reset.stack.set 0 0x202 }
    s.Inv ∧ ∃ t, step s = .next t := by
  refine ⟨⟨by decide, by decide, ?_, by decide, by decide, by decide, by decide⟩, _, rfl⟩
  decide

theorem witness_LoadRefused :
    ({ State.reset with loadLock := true } : State).loadLock = true ∧ 3584 < (List.replicate 3585 (0 : Byte)).length := by
  rw [List.length_replicate]
  decide

theorem witness_LoadStores :
    State.reset.loadLock = false ∧ (List.replicate 3584 (0 : Byte)).length ≤ 3584 ∧
      State.reset.mem.wf State.reset.params := by
  rw [List.length_replicate]
  decide

theorem witness_Boot : imageFits [0x12, 0x00] = true ∧ decode (wordOfBytes 0x12 0x00) = .instr (.jp 0x200) := by decide

end Sys2Proof.Tests
end

section
/-! The state of the CORE (10_state.md): what executing an instruction can do to it, said once, and from that what
each instruction writes, the invariant of the machine's states, and what no instruction reads. -/

namespace Sys2Proof.Machine

variable {i : Instr} {s t : State}

/-! ## All an instruction can do -/

/-- How an instruction that raises no fault changes the state: which pieces it writes, which instruction may write them
so, and the bounds its results keep. -/
inductive Completes (i : Instr) (s : State) : State → Prop
  /-- V and PC: the loads and the ALU, the skips, the key wait, held or not. -/
  | regs (v : Vector Byte 16) (w : Word)
      (hv : ∀ j : Reg, v[j.val] ≠ s.v[j.val] → destination i j = true ∨ (j = 15 ∧ writesFlag i = true))
      (hw : w = s.pc ∨ w = s.pc + 2#16 ∨ w = s.pc + 4#16) :
      Completes i s { s with v := v, pc := w }
  /-- RND: V, PC and the count of draws. -/
  | draw (x : Reg) (kk : Byte) (hi : i = .rndVxKk x kk) :
      Completes i s { s with
        v := s.v.set x.val (Config.randomByte s.draws &&& kk), pc := s.pc + 2#16, draws := s.draws + 1 }
  /-- JP: PC alone, inside the bound of R32. -/
  | jump (w : Word) (hw : w.toNat ≤ 0x10FE) : Completes i s { s with pc := w }
  /-- CALL: the post-fetch address in the first free slot. -/
  | call (nnn : Addr) (hi : i = .call nnn) (h : s.sp.val < 16) :
      Completes i s { s with
        stack := s.stack.set s.sp.val s.npc, sp := ⟨s.sp.val + 1, by omega⟩, pc := addrWord nnn }
  /-- RET: the slots stay, the top one is left. -/
  | ret (hi : i = .ret) (h : 0 < s.sp.val) :
      Completes i s { s with sp := ⟨s.sp.val - 1, by omega⟩, pc := s.stack[s.sp.val - 1] }
  /-- LD I, ADD I, LD F: I within 12 bits under `i_mask_12` (R231). -/
  | index (w : Word) (hi : (∃ nnn, i = .ldIAddr nnn) ∨ ∃ x, i = .addIVx x ∨ i = .ldFVx x)
      (hw : s.params.iMask12 = true → w.toNat < 4096) :
      Completes i s { s with i := w, pc := s.pc + 2#16 }
  /-- LD B, LD [I]: bytes stored inside memory (R71). -/
  | store (a : Nat) (bs : List Byte) (hi : ∃ x, i = .ldBVx x ∨ i = .ldMemVx x) (ha : a + bs.length ≤ 4096) :
      Completes i s { s with mem := (s.writeBytes a bs).mem, pc := s.pc + 2#16 }
  /-- CLS: the display. -/
  | clear (hi : i = .cls) : Completes i s { s with disp := Display.clear, pc := s.pc + 2#16 }
  /-- DRW: the display, and VF. -/
  | drawn (d : Display) (b : Byte) (hi : ∃ x y n, i = .drwVxVyN x y n) :
      Completes i s { s with disp := d, v := s.v.set 15 b, pc := s.pc + 2#16 }
  /-- LD DT. -/
  | delayTimer (b : Byte) (hi : ∃ x, i = .ldDtVx x) : Completes i s { s with dt := b, pc := s.pc + 2#16 }
  /-- LD ST. -/
  | soundTimer (b : Byte) (hi : ∃ x, i = .ldStVx x) : Completes i s { s with st := b, pc := s.pc + 2#16 }

/-- What executing an instruction answers: the fault that the table of R320 gives it, taken precisely (R321), or, where
the table gives none, a completed state. -/
def Executes (i : Instr) (s : State) : Prop :=
  (∃ c a, raises i s = some (c, a) ∧ exec i s = .next (s.raise c a)) ∨
  (raises i s = none ∧ ∃ t, exec i s = .next t ∧ Completes i s t)

/-! ### The shapes of a completed instruction -/

theorem Completes.advance_setReg (x : Reg) (b : Byte) (hx : destination i x = true) :
    Completes i s (s.setReg x b).advance := by
  refine .regs (s.v.set x.val b) (s.pc + 2#16) (fun j hj => .inl ?_) (by simp)
  by_cases h : j = x
  · exact h ▸ hx
  · exact absurd (v_set_ne s.v b h) hj

theorem Completes.advance_writeResultFlag (x : Reg) (r : Byte) (f : Bool) (hx : destination i x = true)
    (hf : writesFlag i = true) : Completes i s (s.writeResultFlag x r f).advance := by
  refine .regs (s.writeResultFlag x r f).v (s.pc + 2#16) (fun j hj => ?_) (by simp)
  by_cases hjx : j = x
  · exact .inl (hjx ▸ hx)
  · by_cases hj15 : j = regVF
    · exact .inr ⟨hj15, hf⟩
    · exact absurd (writeResultFlag_other r f hjx hj15) hj

theorem Completes.advance_setRegs (x : Reg) (hx : ∀ j : Reg, j ≤ x → destination i j = true) :
    Completes i s (s.setRegs (s.loadedRegs x)).advance := by
  refine .regs (s.loadedRegs x) (s.pc + 2#16) (fun j hj => .inl (hx j ?_)) (.inr (.inl rfl))
  rw [loadedRegs_get] at hj
  by_contra h
  exact hj (if_neg h)

theorem Completes.skipIf (c : Bool) : Completes i s (s.skipIf c) := by
  rw [skipIf_eq]
  exact .regs s.v _ (fun _ hj => absurd rfl hj) (by cases c <;> simp)

theorem Completes.hold : Completes i s s :=
  .regs s.v s.pc (fun _ hj => absurd rfl hj) (.inl rfl)

theorem Completes.advance_writeBytes (a : Nat) (bs : List Byte) (hi : ∃ x, i = .ldBVx x ∨ i = .ldMemVx x)
    (ha : a + bs.length ≤ 4096) : Completes i s (s.writeBytes a bs).advance := by
  rw [State.writeBytes_eq]
  exact .store a bs hi ha

/-! ### The bounds of what is written -/

/-- R103: an address is zero-extended. -/
theorem addrWord_toNat (nnn : Addr) : (addrWord nnn).toNat = nnn.toNat := by
  have := nnn.isLt
  rw [addrWord, BitVec.toNat_setWidth]
  omega

theorem addrWord_lt (nnn : Addr) : (addrWord nnn).toNat < 4096 :=
  addrWord_toNat nnn ▸ nnn.isLt

/-- R169: the sum of a 12-bit address and a byte does not wrap, and is the largest PC of R32. -/
theorem jumpTarget_le (s : State) (nnn : Addr) : (s.jumpTarget nnn).toNat ≤ 0x10FE := by
  have hn := nnn.isLt
  have hb := (s.reg 0).isLt
  simp only [State.jumpTarget, byteWord, BitVec.toNat_add, addrWord_toNat, BitVec.toNat_setWidth]
  omega

theorem indexSum_lt (h : s.params.iMask12 = true) (b : Byte) : (s.indexSum b).toNat < 4096 := by
  simp only [State.indexSum, h, if_true, BitVec.toNat_ofNat]
  omega

/-- R232: the glyphs lie in the font, at 0..79. -/
theorem glyphAddress_lt (b : Byte) : (glyphAddress b).toNat < 4096 := by
  have : (b &&& 0x0F#8).toNat ≤ 15 := by
    rw [BitVec.toNat_and]
    exact Nat.and_le_right
  show (BitVec.ofNat 16 (0 + 5 * (b &&& 0x0F#8).toNat)).toNat < 4096
  rw [BitVec.toNat_ofNat]
  exact (Nat.mod_le _ _).trans_lt (by omega)

/-! ### The instructions that branch: on a fault, or on the keys held -/

theorem Executes.of_next (hr : raises i s = none) (he : exec i s = .next t) (hc : Completes i s t) : Executes i s :=
  .inr ⟨hr, t, he, hc⟩

theorem Executes.of_fault {c : FaultCode} {a : Nat} (hr : raises i s = some (c, a))
    (he : exec i s = .next (s.raise c a)) : Executes i s :=
  .inl ⟨c, a, hr, he⟩

/-- R71: an instruction behind a range check, from what it answers in range. -/
theorem Executes.of_guardRange {base len : Nat} {n : State} (he : exec i s = guardRange base len s n)
    (hr : raises i s = if outOfRange base len then some (.memRange, max base 4096) else none)
    (hn : outOfRange base len = false → Completes i s n) : Executes i s := by
  rcases guardRange_cases base len s n with ⟨ho, hg⟩ | ⟨ho, hg⟩
  · exact .of_fault (by simp [hr, ho]) (he.trans hg)
  · exact .of_next (by simp [hr, ho]) (he.trans hg) (hn ho)

/-- R293, R294: a skip on a key. -/
theorem Executes.of_skipOnKey {x : Reg} {held : Bool} (he : exec i s = skipOnKey x held s)
    (hr : raises i s = if 15 < (s.reg x).toNat then some (.keyRange, 0) else none) : Executes i s := by
  unfold skipOnKey at he
  split at he
  · rename_i h
    exact .of_fault (by simp [hr, h]) he
  · rename_i h
    exact .of_next (by simp [hr, h]) he (.skipIf _)

theorem executes_call (nnn : Addr) (s : State) : Executes (.call nnn) s := by
  rcases push_cases (s := s) s.npc with ⟨h, hp⟩ | ⟨h, hp⟩
  · exact .of_fault (if_pos h) (by simp only [exec, execCall, hp, takeFault])
  · exact .of_next (if_neg (by omega)) (by simp only [exec, execCall, hp]; rfl) (.call nnn rfl h)

theorem executes_ret (s : State) : Executes .ret s := by
  rcases pop_cases (s := s) with ⟨h, hp⟩ | ⟨h, hp⟩
  · exact .of_fault (if_pos h) (by simp only [exec, execRet, hp, takeFault])
  · exact .of_next (if_neg (by omega)) (by simp only [exec, execRet, hp]; rfl) (.ret rfl h)

theorem executes_ldVxK (x : Reg) (s : State) : Executes (.ldVxK x) s := by
  cases h : s.lowestKey with
  | none => exact .of_next rfl (by simp only [exec, execLdVxK, h]) .hold
  | some k =>
    exact .of_next rfl (by simp only [exec, execLdVxK, h])
      (.advance_setReg x (BitVec.ofNat 8 k) (by simp [destination]))

theorem executes_ldBVx (x : Reg) (s : State) : Executes (.ldBVx x) s := by
  refine .of_guardRange rfl ?_ fun h => .advance_writeBytes _ _ ⟨x, .inl rfl⟩ ?_
  · simp [raises, outOfRange_iff, State.base]
  · have := mt (outOfRange_iff s.base 3).mpr (by simp [h])
    show s.base + 3 ≤ 4096
    omega

theorem executes_ldMemVx (x : Reg) (s : State) : Executes (.ldMemVx x) s := by
  refine .of_guardRange rfl ?_ fun h => .advance_writeBytes _ _ ⟨x, .inr rfl⟩ ?_
  · simp [raises, outOfRange_iff, State.base]
  · have := mt (outOfRange_iff s.base (x.val + 1)).mpr (by simp [h])
    rw [regBlock_length]
    omega

theorem executes_ldVxMem (x : Reg) (s : State) : Executes (.ldVxMem x) s := by
  refine .of_guardRange rfl ?_ fun _ => .advance_setRegs x fun _ hj => ?_
  · simp [raises, outOfRange_iff, State.base]
  · simpa [destination] using hj

theorem executes_drwVxVyN (x y : Reg) (n : Fin 16) (s : State) : Executes (.drwVxVyN x y n) s := by
  refine .of_guardRange rfl ?_ fun _ => .drawn _ _ ⟨x, y, n, rfl⟩
  have : 0 < n.val ∧ 4096 ≤ s.i.toNat + n.val - 1 ↔ 0 < n.val ∧ 4096 ≤ s.i.toNat + (n.val - 1) := by omega
  simp only [raises, outOfRange_iff, State.base, this]

/-- Every instruction takes the fault of R320's table, precisely, or completes. -/
theorem executes (i : Instr) (s : State) : Executes i s := by
  cases i with
  | cls => exact .of_next rfl rfl (.clear rfl)
  | ret => exact executes_ret s
  | jp nnn => exact .of_next rfl rfl (.jump _ (by have := addrWord_lt nnn; omega))
  | call nnn => exact executes_call nnn s
  | jpV0Addr nnn => exact .of_next rfl rfl (.jump _ (jumpTarget_le s nnn))
  | seVxKk | sneVxKk | seVxVy | sneVxVy => exact .of_next rfl rfl (.skipIf _)
  | ldVxKk | addVxKk | ldVxVy | orVxVy | andVxVy | xorVxVy | ldVxDt =>
    exact .of_next rfl rfl (.advance_setReg _ _ (by simp [destination]))
  | addVxVy | subVxVy | shrVx | subnVxVy | shlVx =>
    exact .of_next rfl rfl (.advance_writeResultFlag _ _ _ (by simp [destination]) rfl)
  | rndVxKk x kk => exact .of_next rfl rfl (.draw x kk rfl)
  | ldIAddr nnn => exact .of_next rfl rfl (.index _ (.inl ⟨nnn, rfl⟩) fun _ => addrWord_lt nnn)
  | addIVx x => exact .of_next rfl rfl (.index _ (.inr ⟨x, .inl rfl⟩) fun h => indexSum_lt h _)
  | ldFVx x => exact .of_next rfl rfl (.index _ (.inr ⟨x, .inr rfl⟩) fun _ => glyphAddress_lt _)
  | ldBVx x => exact executes_ldBVx x s
  | ldMemVx x => exact executes_ldMemVx x s
  | ldVxMem x => exact executes_ldVxMem x s
  | drwVxVyN x y n => exact executes_drwVxVyN x y n s
  | skpVx | sknpVx => exact .of_skipOnKey rfl rfl
  | ldVxK x => exact executes_ldVxK x s
  | ldDtVx x => exact .of_next rfl rfl (.delayTimer _ ⟨x, rfl⟩)
  | ldStVx x => exact .of_next rfl rfl (.soundTimer _ ⟨x, rfl⟩)

/-- The inversion of `exec`: the state it answers is that of the fault, or a completed one. -/
theorem exec_cases (h : exec i s = .next t) :
    (∃ c a, raises i s = some (c, a) ∧ t = s.raise c a) ∨ (raises i s = none ∧ Completes i s t) := by
  rcases executes i s with ⟨c, a, hr, he⟩ | ⟨hr, u, he, hc⟩
  · exact .inl ⟨c, a, hr, Host.Outcome.next.inj (h.symm.trans he)⟩
  · exact .inr ⟨hr, Host.Outcome.next.inj (h.symm.trans he) ▸ hc⟩

/-- Every instruction answers a next state. -/
theorem exec_next (i : Instr) (s : State) : ∃ t, exec i s = .next t := by
  rcases executes i s with ⟨c, a, _, he⟩ | ⟨_, t, he, _⟩
  · exact ⟨_, he⟩
  · exact ⟨t, he⟩

/-! ## What each instruction writes -/

/-- A register that differs after a completed instruction is a destination of it, or VF as a flag. -/
theorem Completes.reg_changed (hc : Completes i s t) (j : Reg) (hj : t.v[j.val] ≠ s.v[j.val]) :
    destination i j = true ∨ (j = 15 ∧ writesFlag i = true) := by
  cases hc with
  | regs v w hv hw => exact hv j hj
  | draw x kk hi =>
    refine .inl ?_
    by_cases h : j = x
    · simp [hi, destination, h]
    · exact absurd (v_set_ne s.v _ h) hj
  | drawn d b hi =>
    obtain ⟨x, y, n, rfl⟩ := hi
    by_cases h : j = 15
    · exact .inr ⟨h, rfl⟩
    · exact absurd (v_set_ne s.v b h) hj
  | jump | call | ret | index | store | clear | delayTimer | soundTimer => exact absurd rfl hj

theorem exec_reg_changed (h : exec i s = .next t) (j : Reg) (hj : t.v[j.val] ≠ s.v[j.val]) :
    destination i j = true ∨ (j = 15 ∧ writesFlag i = true) := by
  rcases exec_cases h with ⟨c, a, _, rfl⟩ | ⟨_, hc⟩
  · exact absurd rfl hj
  · exact hc.reg_changed j hj

/-- Settles O22: the contrapositive of `exec_reg_changed`. -/
theorem onlyDestinationsAndTheFlagLatchChange : Obligations.OnlyDestinationsAndTheFlagLatchChange := by
  intro i s t j he hd hf
  by_contra hj
  rcases exec_reg_changed he j hj with h | ⟨h15, h⟩
  · exact absurd h (by simp [hd])
  · exact absurd h (by simp [hf h15])

/-- Settles O37: a fault writes the status alone, and each way to complete names its instructions. -/
theorem eachPieceIsWrittenOnlyByItsInstructions : Obligations.EachPieceIsWrittenOnlyByItsInstructions := by
  intro i s t he
  refine ⟨exec_reg_changed he, ?_⟩
  rcases exec_cases he with ⟨c, a, hr, rfl⟩ | ⟨hr, hc⟩
  · simp [hr]
  · refine ⟨fun _ => hr, ?_⟩
    cases hc with
    | regs | jump => simp
    | draw _ _ hi | call _ hi | ret hi | index _ hi | store _ _ hi | clear hi | drawn _ _ hi | delayTimer _ hi
    | soundTimer _ hi => simp [hi]

/-! ## The invariant -/

theorem resetWith_inv (p : Config.Params) : (State.resetWith p).Inv where
  memory := ⟨.nil, by simp [State.resetWith]⟩
  pc := by simp [State.resetWith]
  stack j hj := absurd hj (by simp [State.resetWith])
  index _ := by simp [State.resetWith]
  halted := by simp [State.resetWith]
  faultAddr := by simp [State.resetWith]
  lock h := absurd h (by simp [State.resetWith])

/-- Settles O42, by `resetWith_inv`. -/
theorem resetMeetsTheInvariant : Obligations.ResetMeetsTheInvariant :=
  ⟨resetWith_inv defaultParams, resetWith_inv⟩

/-- A step's lock keeps the invariant. -/
theorem State.Inv.lock_inv (h : s.Inv) : s.lock.Inv :=
  ⟨h.memory, h.pc, h.stack, h.index, h.halted, h.faultAddr, fun _ => rfl⟩

/-- A write of PC inside the bound of R32 keeps the invariant. -/
theorem State.Inv.setPc (h : s.Inv) {w : Word} (hw : w.toNat ≤ 0x10FE) : (s.setPc w).Inv :=
  ⟨h.memory, hw, h.stack, h.index, h.halted, h.faultAddr, h.lock⟩

/-- R320, R322: a code that a fault can have, with an address that it can record. -/
def FaultRecord (c : FaultCode) (a : Nat) : Prop :=
  c ≠ .none ∧ if c = .fetchError ∨ c = .memRange then 4096 ≤ a ∧ a < 65536 else a = 0

/-- R322: a 16-bit address, raised to 4096, is one that a range fault can record. -/
theorem faultRecord_range {c : FaultCode} (hc : c = .fetchError ∨ c = .memRange) (w : Word) :
    FaultRecord c (max w.toNat 4096) := by
  have := w.isLt
  refine ⟨by rcases hc with rfl | rfl <;> decide, ?_⟩
  rw [if_pos hc]
  omega

theorem FaultRecord.of_ite {q : Prop} [Decidable q] {c c' : FaultCode} {a a' : Nat} (hf : FaultRecord c' a')
    (h : (if q then some (c', a') else none) = some (c, a)) : FaultRecord c a := by
  split at h
  · cases h
    exact hf
  · cases h

/-- Every fault of R320's table is one that can be recorded. -/
theorem faultRecord_raises {c : FaultCode} {a : Nat} (h : raises i s = some (c, a)) : FaultRecord c a := by
  cases i with
  | ret | call | skpVx | sknpVx => exact .of_ite ⟨by decide, by decide⟩ h
  | drwVxVyN | ldBVx | ldMemVx | ldVxMem => exact .of_ite (faultRecord_range (.inr rfl) s.i) h
  | _ => cases h

/-- Taking a fault keeps the invariant of a CORE whose LOAD_LOCK is set. -/
theorem State.Inv.raise (h : s.Inv) (hl : s.loadLock = true) {c : FaultCode} {a : Nat} (hf : FaultRecord c a) :
    (s.raise c a).Inv := by
  obtain ⟨hc, ha⟩ := hf
  refine ⟨h.memory, h.pc, h.stack, h.index, by simpa using hc, ?_, fun _ => hl⟩
  simp only [raise_faultCode, raise_faultAddr, BitVec.toNat_ofNat]
  split at ha
  · rename_i hr
    rw [if_pos hr]
    omega
  · rename_i hr
    rw [if_neg hr, ha]
    rfl

/-- A completed instruction keeps the invariant, from a PC that can be fetched from. -/
theorem Completes.inv (hc : Completes i s t) (h : s.Inv) (hpc : s.pc.toNat + 1 < 4096) : t.Inv := by
  have npc : (s.pc + 2#16).toNat = s.pc.toNat + 2 := by simp; omega
  have next : (s.pc + 2#16).toNat ≤ 0x10FE := by omega
  cases hc with
  | regs v w hv hw =>
    have bound : w.toNat ≤ 0x10FE := by
      rcases hw with rfl | rfl | rfl
      · exact h.pc
      · exact next
      · simp; omega
    exact ⟨h.memory, bound, h.stack, h.index, h.halted, h.faultAddr, h.lock⟩
  | draw | clear | drawn | delayTimer | soundTimer =>
    exact ⟨h.memory, next, h.stack, h.index, h.halted, h.faultAddr, h.lock⟩
  | jump w hw => exact h.setPc hw
  | call nnn hi hsp =>
    refine ⟨h.memory, ?_, fun j hj => ?_, h.index, h.halted, h.faultAddr, h.lock⟩
    · have := addrWord_lt nnn
      simp; omega
    · change j.val < s.sp.val + 1 at hj
      show 2 ≤ ((s.stack.set s.sp.val s.npc)[j.val]).toNat ∧ ((s.stack.set s.sp.val s.npc)[j.val]).toNat ≤ 4096
      by_cases hjs : s.sp.val = j.val
      · simp [hjs, State.npc, npc]
        omega
      · rw [Vector.getElem_set_ne _ _ hjs]
        exact h.stack j (by omega)
  | ret hi hsp =>
    have top := h.stack ⟨s.sp.val - 1, by omega⟩ (by simp; omega)
    refine ⟨h.memory, ?_, fun j hj => h.stack j ?_, h.index, h.halted, h.faultAddr, h.lock⟩
    · simp at top ⊢
      omega
    · simp at hj
      omega
  | index w hi hw => exact ⟨h.memory, next, h.stack, hw, h.halted, h.faultAddr, h.lock⟩
  | store a bs hi ha =>
    exact ⟨State.wf_writeBytes bs a s h.memory ha, next, h.stack, h.index, h.halted, h.faultAddr, h.lock⟩

/-- Executing keeps the invariant of a locked CORE, from a PC that can be fetched from. -/
theorem exec_inv (h : s.Inv) (hl : s.loadLock = true) (hpc : s.pc.toNat + 1 < 4096) (he : exec i s = .next t) :
    t.Inv := by
  rcases exec_cases he with ⟨c, a, hr, rfl⟩ | ⟨_, hc⟩
  · exact h.raise hl (faultRecord_raises hr)
  · exact hc.inv h hpc

/-- What a step can do (`step_cases`) keeps the invariant. -/
theorem step_inv (h : s.Inv) (hs : step s = .next t) : t.Inv := by
  rcases step_cases s with ⟨_, he⟩ | ⟨_, _, he⟩ | ⟨op, _, hpc, _, ⟨i, _, he⟩ | ⟨_, he⟩⟩
  · exact Host.Outcome.next.inj (he.symm.trans hs) ▸ h
  · exact Host.Outcome.next.inj (he.symm.trans hs) ▸ h.lock_inv.raise rfl (faultRecord_range (.inl rfl) s.pc)
  · exact exec_inv h.lock_inv rfl hpc (he.symm.trans hs)
  · exact Host.Outcome.next.inj (he.symm.trans hs) ▸ h.lock_inv.setPc (by simp; omega)

/-- Settles O43, by `step_inv`. -/
theorem everyStepKeepsTheInvariant : Obligations.EveryStepKeepsTheInvariant :=
  fun _ _ h hs => step_inv h hs

/-! ## The key wait -/

/-- R40: what it is to await a key. -/
theorem awaitingKey_iff : awaitingKey s = true ↔
    s.halted = false ∧ s.key = 0#16 ∧ ∃ op x, s.fetch = some op ∧ decode op = .instr (.ldVxK x) := by
  cases hf : s.fetch with
  | none => simp [awaitingKey, hf]
  | some op =>
    simp only [awaitingKey, hf, Option.map_some]
    cases hd : decode op with
    | unknown w => simp [hd]
    | instr i =>
      cases i with
      | ldVxK x => simp [hd]
      | _ => simp [hd]

/-- R140: the step of a live CORE runs the instruction at PC. -/
theorem step_of_fetch {op : Word} (hh : s.halted = false) (hf : s.fetch = some op) (hd : decode op = .instr i) :
    step s = exec i s.lock := by
  have hl : s.lock.fetch = some op := hf
  simp [step, hh, hl, hd]

theorem exec_ldVxK_of_no_key (x : Reg) (hk : s.key = 0#16) : exec (.ldVxK x) s = .next s := by
  have : s.lowestKey = none := lowestKey_eq_none_iff.mpr fun k _ => by simp [State.keyHeld, hk]
  simp [exec, execLdVxK, this]

theorem exec_ldVxK_of_key (x : Reg) (hk : s.key ≠ 0#16) :
    ∃ k, exec (.ldVxK x) s = .next (s.setReg x (BitVec.ofNat 8 k)).advance := by
  cases h : s.lowestKey with
  | none =>
    have clear : ∀ k < 16, s.keyHeld k = false := lowestKey_eq_none_iff.mp h
    exact absurd (BitVec.eq_of_getLsbD_eq fun k hk => by simpa [State.keyHeld] using clear k hk) hk
  | some k => exact ⟨k, by simp [exec, execLdVxK, h]⟩

/-- Settles O36: with no key the key wait holds, and with one it advances. -/
theorem awaitingAKeyHoldsUntilOneIsHeld : Obligations.AwaitingAKeyHoldsUntilOneIsHeld := by
  intro s hs
  obtain ⟨hh, hk, op, x, hf, hd⟩ := awaitingKey_iff.mp hs
  refine ⟨(step_of_fetch hh hf hd).trans (exec_ldVxK_of_no_key x hk), fun k hk => ?_⟩
  obtain ⟨j, he⟩ := exec_ldVxK_of_key (s := (s.setKey k).lock) x hk
  exact ⟨_, (step_of_fetch (s := s.setKey k) hh hf hd).trans he, rfl⟩

/-! ## What no instruction reads -/

/-- The state with another sound timer and another count of draws. -/
def State.mapHidden (f : Byte → Byte) (g : Nat → Nat) (s : State) : State :=
  { s with st := f s.st, draws := g s.draws }

/-- A change of the state that an outcome answers. -/
def Result.mapNext (f : State → State) : Result → Result
  | .next s => .next (f s)
  | .fault r => .fault r
  | .refused r => .refused r

section
variable (f : Byte → Byte) (g : Nat → Nat)

theorem writeBytes_mapHidden (bs : List Byte) (a : Nat) (s : State) :
    (s.mapHidden f g).writeBytes a bs = (s.writeBytes a bs).mapHidden f g := by
  induction bs generalizing a s with
  | nil => rfl
  | cons b bs ih => exact ih (a + 1) (s.writeByte a b)

theorem skipIf_mapHidden (c : Bool) : (s.mapHidden f g).skipIf c = (s.skipIf c).mapHidden f g := by
  cases c <;> rfl

theorem guardRange_mapHidden {base len : Nat} {n n' : State} (hn : n' = n.mapHidden f g) :
    guardRange base len (s.mapHidden f g) n' = Result.mapNext (State.mapHidden f g) (guardRange base len s n) := by
  subst hn
  unfold guardRange
  split <;> rfl

theorem skipOnKey_mapHidden (x : Reg) (held : Bool) (s : State) :
    skipOnKey x held (s.mapHidden f g) = Result.mapNext (State.mapHidden f g) (skipOnKey x held s) := by
  have hreg : (s.mapHidden f g).reg x = s.reg x := rfl
  have hkey (k : Nat) : (s.mapHidden f g).keyHeld k = s.keyHeld k := rfl
  simp only [skipOnKey, hreg, hkey, skipIf_mapHidden]
  split <;> rfl

theorem push_mapHidden (w : Word) (s : State) :
    (s.mapHidden f g).push w = (s.push w).map (State.mapHidden f g) := by
  show (if h : s.sp.val < 16 then _ else _) = _
  unfold State.push
  split <;> rfl

theorem pop_mapHidden (s : State) :
    (s.mapHidden f g).pop = s.pop.map fun p => (p.1, p.2.mapHidden f g) := by
  show (if h : 0 < s.sp.val then _ else _) = _
  unfold State.pop
  split <;> rfl

/-- Executing commutes with a change of the sound timer and of the count of draws, but for the one instruction that
writes the sound timer and the one that draws. -/
theorem exec_mapHidden (hst : ∀ x, i ≠ .ldStVx x) (hrnd : ∀ x kk, i ≠ .rndVxKk x kk) (s : State) :
    exec i (s.mapHidden f g) = Result.mapNext (State.mapHidden f g) (exec i s) := by
  cases i with
  | ldStVx x => exact absurd rfl (hst x)
  | rndVxKk x kk => exact absurd rfl (hrnd x kk)
  | seVxKk | sneVxKk | seVxVy | sneVxVy => exact congrArg _ (skipIf_mapHidden f g _)
  | skpVx x => exact skipOnKey_mapHidden f g x true s
  | sknpVx x => exact skipOnKey_mapHidden f g x false s
  | ldBVx x => exact guardRange_mapHidden f g (congrArg State.advance (writeBytes_mapHidden f g _ _ s))
  | ldMemVx x => exact guardRange_mapHidden f g (congrArg State.advance (writeBytes_mapHidden f g _ _ s))
  | ldVxMem x => exact guardRange_mapHidden f g rfl
  | drwVxVyN x y n => exact guardRange_mapHidden f g rfl
  | call nnn =>
    simp only [exec, execCall]
    rw [show (s.mapHidden f g).npc = s.npc from rfl, push_mapHidden]
    cases s.push s.npc <;> rfl
  | ret =>
    simp only [exec, execRet]
    rw [pop_mapHidden]
    cases s.pop <;> rfl
  | ldVxK x =>
    simp only [exec, execLdVxK]
    rw [show (s.mapHidden f g).lowestKey = s.lowestKey from rfl]
    cases s.lowestKey <;> rfl
  | _ => rfl

end

/-- R35: LD ST alone writes the sound timer. -/
theorem exec_st_unchanged (hst : ∀ x, i ≠ .ldStVx x) (h : exec i s = .next t) : t.st = s.st := by
  rcases exec_cases h with ⟨c, a, _, rfl⟩ | ⟨_, hc⟩
  · rfl
  · cases hc with
    | soundTimer b hi => exact absurd hi (by simp [hst])
    | _ => rfl

/-- Settles O38: RND and LD ST by evaluation, every other instruction by `exec_mapHidden`. -/
theorem soundTimerAndUnusedDrawAreInvisible : Obligations.SoundTimerAndUnusedDrawAreInvisible := by
  intro i s b n
  obtain ⟨t, he⟩ := exec_next i s
  by_cases hst : ∃ x, i = .ldStVx x
  · obtain ⟨x, rfl⟩ := hst
    exact ⟨_, rfl, ⟨_, rfl, rfl, fun _ => rfl, fun h => absurd ⟨x, rfl⟩ h⟩, fun _ => rfl⟩
  by_cases hrnd : ∃ x kk, i = .rndVxKk x kk
  · obtain ⟨x, kk, rfl⟩ := hrnd
    exact ⟨_, rfl, ⟨_, rfl, rfl, fun h => absurd h hst, fun _ => ⟨rfl, rfl⟩⟩, fun h => absurd ⟨x, kk, rfl⟩ h⟩
  have hidden (f g) : exec i (s.mapHidden f g) = .next (t.mapHidden f g) :=
    (exec_mapHidden f g (not_exists.mp hst) (fun x kk h => hrnd ⟨x, kk, h⟩) s).trans (by rw [he]; rfl)
  have kept : t.st = s.st := exec_st_unchanged (not_exists.mp hst) he
  exact ⟨t, he, ⟨_, hidden (fun _ => b) id, rfl, fun h => absurd h hst, fun _ => ⟨rfl, kept⟩⟩,
    fun _ => hidden id fun _ => n⟩

end Sys2Proof.Machine
end

section
/-! Memory (20_memory.md): the block store inside memory, what it leaves to read, and the fetch of stored bytes. -/

namespace Sys2Proof.Machine

variable {s : State} {x j : Reg}

/-- R71: an access whose last address is inside memory passes the range check. -/
theorem guardRange_of_lt {base n : Nat} (h : base + n < 4096) (s t : State) :
    guardRange base (n + 1) s t = .next t := by
  rcases guardRange_cases base (n + 1) s t with ⟨hout, _⟩ | ⟨_, hnext⟩
  · have := (outOfRange_iff base (n + 1)).mp hout
    omega
  · exact hnext

/-- R234, inside memory: the registers stored, and PC moved on. -/
theorem exec_ldMemVx_of_lt (h : s.base + x.val < 4096) :
    exec (.ldMemVx x) s = .next (s.writeBytes s.base (s.regBlock x)).advance :=
  guardRange_of_lt h s _

/-- R234: after the store, `MEM[I + j]` is `V[j]`. -/
theorem readByte_writeBytes_regBlock (hwf : s.mem.wf s.params) (h : s.base + x.val < 4096) (hj : j ≤ x) :
    (s.writeBytes s.base (s.regBlock x)).readByte (s.base + j.val) = s.v[j.val] := by
  have hlt : j.val < (s.regBlock x).length := (regBlock_length x).symm ▸ Nat.lt_succ_of_le hj
  have hfit : s.base + (s.regBlock x).length ≤ Config.memSize := (regBlock_length x).symm ▸ h
  rw [State.readByte_writeBytes_inside _ _ s hwf hfit j.val hlt, regBlock_get]

/-- Storing bytes leaves PC. -/
@[simp] theorem writeBytes_pc (a : Nat) (bs : List Byte) : (s.writeBytes a bs).pc = s.pc := by
  rw [State.writeBytes_eq]

/-- R141, for the fetch at `PC + 2`: the word of the two bytes there, if both are inside memory. -/
theorem fetch_advance (h : s.pc.toNat + 3 < 4096) :
    s.advance.fetch = some (wordOfBytes (s.readByte (s.pc.toNat + 2)) (s.readByte (s.pc.toNat + 3))) := by
  have hpc : s.advance.pc.toNat = s.pc.toNat + 2 := by
    rw [advance_eq, BitVec.toNat_add]
    exact Nat.mod_eq_of_lt (show s.pc.toNat + 2 < 2 ^ 16 by omega)
  rw [fetch_eq_some (by omega), hpc]
  rfl

/-- Settles O29: the stored block is read back at `PC + 2` and `PC + 3`, the two bytes of the next fetch. -/
theorem storedBytesAreFetchedNext : Obligations.StoredBytesAreFetchedNext := by
  intro x j k s hwf hx hj hk hhi hlo
  refine ⟨_, exec_ldMemVx_of_lt hx, ?_⟩
  have hin : s.pc.toNat + 3 < 4096 := by
    have : k.val ≤ x.val := hk
    omega
  rw [fetch_advance (by rwa [writeBytes_pc]), writeBytes_pc, ← hhi, ← hlo]
  exact congrArg some (congrArg₂ wordOfBytes
    (readByte_writeBytes_regBlock hwf hx hj) (readByte_writeBytes_regBlock hwf hx hk))

end Sys2Proof.Machine
end

section
/-! The codec (30_encoding.md): what the decoder answers for a word in terms of its fields, and how the encoder and the
opcode map follow from that. -/

namespace Sys2Proof

variable {w : Word} {i : Instr}

/-! ## Fields (R101) -/

@[simp] theorem nField_encodeXY (f : BitVec 4) (x y n : Fin 16) : nField (encodeXY f x y (nibble n)) = n :=
  congrArg BitVec.toFin (lowNibble_encodeXY f x y (nibble n))

theorem extractLsb'_toNat_div_mod (w : Word) (k l : Nat) : (w.extractLsb' k l).toNat = w.toNat / 2 ^ k % 2 ^ l := by
  rw [BitVec.extractLsb'_toNat, Nat.shiftRight_eq_div_pow]

theorem familyField_toNat (w : Word) : (familyField w).toNat = w.toNat / 4096 :=
  (extractLsb'_toNat_div_mod w 12 4).trans (Nat.mod_eq_of_lt (by omega))

theorem lowNibble_toNat (w : Word) : (lowNibble w).toNat = w.toNat % 16 :=
  (extractLsb'_toNat_div_mod w 0 4).trans (by simp)

theorem kkField_toNat (w : Word) : (kkField w).toNat = w.toNat % 256 :=
  (extractLsb'_toNat_div_mod w 0 8).trans (by simp)

theorem nnnField_toNat (w : Word) : (nnnField w).toNat = w.toNat % 4096 :=
  (extractLsb'_toNat_div_mod w 0 12).trans (by simp)

/-- R73: the word of two bytes is big-endian. -/
theorem wordOfBytes_toNat (hi lo : Byte) : (wordOfBytes hi lo).toNat = hi.toNat * 256 + lo.toNat := by
  unfold wordOfBytes
  rw [BitVec.toNat_append, ← Nat.shiftLeft_add_eq_or_of_lt lo.isLt, Nat.shiftLeft_eq]

/-- Settles O5: a group of bits is a quotient and a remainder by powers of two. -/
theorem fieldsAreTheStatedBitsOfAWord : Obligations.FieldsAreTheStatedBitsOfAWord :=
  ⟨fun w => ⟨familyField_toNat w, extractLsb'_toNat_div_mod w 8 4, extractLsb'_toNat_div_mod w 4 4,
    lowNibble_toNat w, kkField_toNat w, nnnField_toNat w⟩, wordOfBytes_toNat⟩

/-- Settles O6: the decoder evaluated at each word. -/
theorem wordsOfTheTableDecode : Obligations.WordsOfTheTableDecode := by
  unfold Obligations.WordsOfTheTableDecode
  decide

/-! ## Decoding an encoded word (R104, R105) -/

/-- The codec law, one format of R102 at a time. -/
theorem decode_encode (i : Instr) : decode (encode i) = .instr i := by
  cases i with
  | cls | ret => decide
  | jp | call | ldIAddr | jpV0Addr =>
    simp only [encode, decode, familyField_encodeA, nnnField_encodeA]
  | seVxKk | sneVxKk | ldVxKk | addVxKk | rndVxKk =>
    simp only [encode, decode, familyField_encodeXK, xField_encodeXK, kkField_encodeXK]
  | seVxVy | sneVxVy =>
    simp only [encode, decode, familyField_encodeXY, xField_encodeXY, yField_encodeXY]
  | ldVxVy | orVxVy | andVxVy | xorVxVy | addVxVy | subVxVy | subnVxVy | shrVx | shlVx =>
    simp only [encode, decode, familyField_encodeXY, xField_encodeXY, yField_encodeXY, lowNibble_encodeXY]
  | drwVxVyN =>
    simp only [encode, decode, familyField_encodeXY, xField_encodeXY, yField_encodeXY, nField_encodeXY]
  | skpVx | sknpVx =>
    simp only [encode, decode, familyField_encodeXK, xField_encodeXK, kkField_encodeXK]
  | ldVxDt | ldVxK | ldDtVx | ldStVx | addIVx | ldFVx | ldBVx | ldMemVx | ldVxMem =>
    simp only [encode, decode, familyField_encodeXK, xField_encodeXK, kkField_encodeXK]
    rfl

/-- Settles O1, by `decode_encode`: the fields of an encoded word are the fields it was made from. -/
theorem decodeEncodeGivesBackEveryInstruction : Obligations.DecodeEncodeGivesBackEveryInstruction :=
  decode_encode

/-! ## Re-encoding (R109) -/

section
variable (x y : Reg) (s : BitVec 4)

theorem decode_encodeXY_5 : decode (encodeXY 0x5#4 x y s) = .instr (.seVxVy x y) := by
  simp only [decode, familyField_encodeXY, xField_encodeXY, yField_encodeXY]

theorem decode_encodeXY_9 : decode (encodeXY 0x9#4 x y s) = .instr (.sneVxVy x y) := by
  simp only [decode, familyField_encodeXY, xField_encodeXY, yField_encodeXY]

theorem decode_encodeXY_8_6 : decode (encodeXY 0x8#4 x y 0x6#4) = .instr (.shrVx x) := by
  simp only [decode, familyField_encodeXY, xField_encodeXY, lowNibble_encodeXY]

theorem decode_encodeXY_8_E : decode (encodeXY 0x8#4 x y 0xE#4) = .instr (.shlVx x) := by
  simp only [decode, familyField_encodeXY, xField_encodeXY, lowNibble_encodeXY]

end

theorem encodeA_of_family {f : BitVec 4} (hf : familyField w = f) : encodeA f (nnnField w) = w :=
  hf ▸ eta_encodeA w

theorem encodeXK_of_selector {f : BitVec 4} {kk : Byte} (hf : familyField w = f) (hk : kkField w = kk) :
    encodeXK f (xField w) kk = w :=
  hf ▸ hk ▸ eta_encodeXK w

theorem encodeXY_of_selector {f s : BitVec 4} (hf : familyField w = f) (hs : lowNibble w = s) :
    encodeXY f (xField w) (yField w) s = w :=
  hf ▸ hs ▸ eta_encodeXY w

/-- R109: the words that spell an instruction: its canonical word, and the variants of the four that ignore a field. -/
inductive Spells (w : Word) : Instr → Prop
  | canonical {i : Instr} (h : encode i = w) : Spells w i
  | seVxVy {x y : Reg} {s : BitVec 4} (h : encodeXY 0x5#4 x y s = w) : Spells w (.seVxVy x y)
  | sneVxVy {x y : Reg} {s : BitVec 4} (h : encodeXY 0x9#4 x y s = w) : Spells w (.sneVxVy x y)
  | shrVx {x y : Reg} (h : encodeXY 0x8#4 x y 0x6#4 = w) : Spells w (.shrVx x)
  | shlVx {x y : Reg} (h : encodeXY 0x8#4 x y 0xE#4 = w) : Spells w (.shlVx x)

/-- The last family is what no other family matches. -/
theorem eq_F_of_ne {f : BitVec 4} (_ : f ≠ 0x0#4) (_ : f ≠ 0x1#4) (_ : f ≠ 0x2#4) (_ : f ≠ 0x3#4)
    (_ : f ≠ 0x4#4) (_ : f ≠ 0x5#4) (_ : f ≠ 0x6#4) (_ : f ≠ 0x7#4) (_ : f ≠ 0x8#4) (_ : f ≠ 0x9#4)
    (_ : f ≠ 0xA#4) (_ : f ≠ 0xB#4) (_ : f ≠ 0xC#4) (_ : f ≠ 0xD#4) (_ : f ≠ 0xE#4) : f = 0xF#4 := by
  bv_omega

/-- A word spells the instruction it decodes to. -/
theorem spells_of_decode (h : decode w = .instr i) : Spells w i := by
  unfold decode at h
  simp only at h
  split at h
  case h_1 => -- 0nnn: CLS and RET
    split at h
    · next hw => cases h; exact .canonical hw.symm
    split at h
    · next hw => cases h; exact .canonical hw.symm
    · cases h
  case h_2 hf | h_3 hf | h_11 hf | h_12 hf => -- format A
    cases h; exact .canonical (encodeA_of_family hf)
  case h_4 hf | h_5 hf | h_7 hf | h_8 hf | h_13 hf => -- format XK
    cases h; exact .canonical (encodeXK_of_selector hf rfl)
  case h_6 hf => cases h; exact .seVxVy (encodeXY_of_selector hf rfl)
  case h_10 hf => cases h; exact .sneVxVy (encodeXY_of_selector hf rfl)
  case h_14 hf => cases h; exact .canonical (encodeXY_of_selector hf rfl)
  case h_9 hf => -- 8xyN
    split at h
    case h_7 hs => cases h; exact .shrVx (encodeXY_of_selector hf hs)
    case h_9 hs => cases h; exact .shlVx (encodeXY_of_selector hf hs)
    case h_10 => cases h
    all_goals next hs => cases h; exact .canonical (encodeXY_of_selector hf hs)
  case h_15 hf => -- ExNN
    split at h
    case h_3 => cases h
    all_goals next hk => cases h; exact .canonical (encodeXK_of_selector hf hk)
  case h_16 => -- FxNN
    have hf : familyField w = 0xF#4 := by apply eq_F_of_ne <;> assumption
    split at h
    case h_10 => cases h
    all_goals next hk => cases h; exact .canonical (encodeXK_of_selector hf hk)

/-- R109 by the fields of the word. -/
theorem canonicalWord_eq_fields (w : Word) : canonicalWord w =
    if familyField w = 0x5#4 ∨ familyField w = 0x9#4 then decide (lowNibble w = 0)
    else if familyField w = 0x8#4 ∧ (lowNibble w = 0x6#4 ∨ lowNibble w = 0xE#4) then decide (yField w = 0)
    else true := by
  have h5 : 0x5000#16 = encodeA 0x5#4 0 := rfl
  have h9 : 0x9000#16 = encodeA 0x9#4 0 := rfl
  have h6 : 0x8006#16 = encodeXY 0x8#4 0 0 0x6#4 := rfl
  have hE : 0x800E#16 = encodeXY 0x8#4 0 0 0xE#4 := rfl
  have h0 : 0#16 = encodeXY 0 0 0 0 := rfl
  rw [canonicalWord, and_F000, and_F00F, and_000F, and_00F0, h5, h9, h6, hE, h0]
  simp [encodeA_inj, encodeXY_inj, and_or_left]

theorem canonicalWord_encodeXY_pair {f : BitVec 4} (hf : f = 0x5#4 ∨ f = 0x9#4) (x y : Reg) (s : BitVec 4) :
    canonicalWord (encodeXY f x y s) = true ↔ s = 0 := by
  rw [canonicalWord_eq_fields, familyField_encodeXY, if_pos hf, lowNibble_encodeXY, decide_eq_true_iff]

theorem canonicalWord_encodeXY_shift {s : BitVec 4} (hs : s = 0x6#4 ∨ s = 0xE#4) (x y : Reg) :
    canonicalWord (encodeXY 0x8#4 x y s) = true ↔ y = 0 := by
  rw [canonicalWord_eq_fields, familyField_encodeXY, lowNibble_encodeXY, if_neg (by decide), if_pos ⟨rfl, hs⟩,
    yField_encodeXY, decide_eq_true_iff]

/-- R109, for one spelling of one instruction. -/
theorem encode_eq_iff_canonicalWord (h : Spells w i) : encode i = w ↔ canonicalWord w = true := by
  cases h with
  | canonical h => exact iff_of_true h (h ▸ (Laws.Codec.all i).1)
  | seVxVy h => subst h; rw [canonicalWord_encodeXY_pair (.inl rfl), encode, eq_comm, encodeXY_inj]; simp
  | sneVxVy h => subst h; rw [canonicalWord_encodeXY_pair (.inr rfl), encode, eq_comm, encodeXY_inj]; simp
  | shrVx h => subst h; rw [canonicalWord_encodeXY_shift (.inl rfl), encode, eq_comm, encodeXY_inj]; simp
  | shlVx h => subst h; rw [canonicalWord_encodeXY_shift (.inr rfl), encode, eq_comm, encodeXY_inj]; simp

/-- Settles O2: `encode_eq_iff_canonicalWord` for the spelling a word decodes by, and the four variants decoded. -/
theorem reencodingIsIdentityExactlyOnCanonicalWords : Obligations.ReencodingIsIdentityExactlyOnCanonicalWords :=
  ⟨fun _ _ h => encode_eq_iff_canonicalWord (spells_of_decode h), decode_encodeXY_5, decode_encodeXY_9,
    decode_encodeXY_8_6, decode_encodeXY_8_E⟩

/-! ## The UNKNOWN space (R106) -/

/-- R106: the four ranges, by the fields of the word. -/
def UnknownSpace (w : Word) : Prop :=
  (familyField w = 0x0#4 ∧ w ∉ [0x00E0#16, 0x00EE#16]) ∨
  (familyField w = 0x8#4 ∧ lowNibble w ∉ [0x0#4, 0x1#4, 0x2#4, 0x3#4, 0x4#4, 0x5#4, 0x6#4, 0x7#4, 0xE#4]) ∨
  (familyField w = 0xE#4 ∧ kkField w ∉ [0x9E#8, 0xA1#8]) ∨
  (familyField w = 0xF#4 ∧
    kkField w ∉ [0x07#8, 0x0A#8, 0x15#8, 0x18#8, 0x1E#8, 0x29#8, 0x33#8, 0x55#8, 0x65#8])

theorem decode_eq_unknown_iff : decode w = .unknown w ↔ UnknownSpace w := by
  unfold decode UnknownSpace
  simp only
  split
  case h_1 hf =>
    split
    · simp_all
    split <;> simp_all
  case h_9 hf | h_15 hf => split <;> simp_all
  case h_16 =>
    have hf : familyField w = 0xF#4 := by apply eq_F_of_ne <;> assumption
    split <;> simp_all
  all_goals next hf => simp [hf]

/-- The fields of R106 are read off the word as a number. -/
theorem unknownSpace_iff_toNat (w : Word) : UnknownSpace w ↔
    (w.toNat / 4096 = 0 ∧ w.toNat ≠ 0x00E0 ∧ w.toNat ≠ 0x00EE) ∨
    (w.toNat / 4096 = 8 ∧ w.toNat % 16 ∈ [0x8, 0x9, 0xA, 0xB, 0xC, 0xD, 0xF]) ∨
    (w.toNat / 4096 = 14 ∧ w.toNat % 256 ∉ [0x9E, 0xA1]) ∨
    (w.toNat / 4096 = 15 ∧ w.toNat % 256 ∉ [0x07, 0x0A, 0x15, 0x18, 0x1E, 0x29, 0x33, 0x55, 0x65]) := by
  have hs : ∀ s : BitVec 4, s ∉ [0x0#4, 0x1#4, 0x2#4, 0x3#4, 0x4#4, 0x5#4, 0x6#4, 0x7#4, 0xE#4] ↔
      s.toNat ∈ [0x8, 0x9, 0xA, 0xB, 0xC, 0xD, 0xF] := by decide
  rw [UnknownSpace, hs, ← familyField_toNat, ← lowNibble_toNat, ← kkField_toNat]
  simp [← BitVec.toNat_inj]

/-- Settles O4: the decoder's UNKNOWN words by their fields, and the fields as numbers. -/
theorem unknownWordsAreExactlyTheFourRanges : Obligations.UnknownWordsAreExactlyTheFourRanges :=
  fun w => decode_eq_unknown_iff.trans (unknownSpace_iff_toNat w)

/-! ## The opcode map (R105) -/

theorem rowOf_mem (i : Instr) : rowOf i ∈ opcodeRows := by
  cases i <;> simp [rowOf, opcodeRows]

/-- R105: a word is selected by the row of the instruction it spells. -/
theorem selects_rowOf (h : Spells w i) : selects w (rowOf i) = true := by
  cases h with
  | canonical h => exact h ▸ (Laws.Codec.all i).2
  | seVxVy h | sneVxVy h =>
    subst h
    exact decide_eq_true ((and_F000 _).trans (by rw [familyField_encodeXY]; rfl))
  | shrVx h | shlVx h =>
    subst h
    exact decide_eq_true ((and_F00F _).trans (by rw [familyField_encodeXY, lowNibble_encodeXY]; rfl))

/-- The matches of two rows differ in a bit that both masks look at, so no word satisfies both. -/
def RowsDisagree (r r' : Word × Word) : Prop := r.2 &&& r'.1 ≠ r'.2 &&& r.1

theorem opcodeRows_disagree : opcodeRows.Pairwise RowsDisagree := by
  unfold RowsDisagree
  decide

theorem RowsDisagree.ne {r r' : Word × Word} (h : RowsDisagree r r') : r ≠ r' :=
  fun e => h (e ▸ rfl)

theorem RowsDisagree.not_selects {r r' : Word × Word} (h : RowsDisagree r r') (hr : selects w r = true) :
    ¬ selects w r' = true := by
  intro hr'
  have e : w &&& r.1 = r.2 := of_decide_eq_true hr
  have e' : w &&& r'.1 = r'.2 := of_decide_eq_true hr'
  exact h (by rw [← e, ← e', BitVec.and_assoc, BitVec.and_assoc, BitVec.and_comm r.1])

theorem row_eq_of_selects {r r' : Word × Word} (hr : r ∈ opcodeRows) (hr' : r' ∈ opcodeRows)
    (h : selects w r = true) (h' : selects w r' = true) : r = r' := by
  have symm : Std.Symm RowsDisagree := ⟨fun _ _ => Ne.symm⟩
  by_contra hne
  exact (opcodeRows_disagree.forall hr hr' hne).not_selects h h'

/-- R105: the rows that select a word are the one row of the instruction it spells. -/
theorem filter_selects_of_spells (h : Spells w i) : opcodeRows.filter (selects w) = [rowOf i] := by
  have nodup := (opcodeRows_disagree.imp RowsDisagree.ne).filter (selects w)
  have members (r : Word × Word) : r ∈ opcodeRows.filter (selects w) ↔ r ∈ [rowOf i] := by
    rw [List.mem_filter, List.mem_singleton]
    exact ⟨fun ⟨hr, hs⟩ => row_eq_of_selects hr (rowOf_mem i) hs (selects_rowOf h),
      fun e => e ▸ ⟨rowOf_mem i, selects_rowOf h⟩⟩
  exact List.perm_singleton.mp ((List.perm_ext_iff_of_nodup nodup (List.nodup_singleton _)).mpr members)

/-- A claim about every row, evaluated row by row. -/
theorem forall_mem_opcodeRows {p : Word × Word → Prop} [DecidablePred p] (h : (opcodeRows.all fun r => p r) = true) :
    ∀ r ∈ opcodeRows, p r :=
  fun r hr => of_decide_eq_true (List.all_eq_true.mp h r hr)

/-- A row's mask looks at every bit that R104 selects by in the row's family. -/
theorem mask_covers_selector : ∀ r ∈ opcodeRows, familyField r.1 = 0xF#4 ∧
    (familyField r.2 = 0x0#4 → r.1 = 0xFFFF#16) ∧ (familyField r.2 = 0x8#4 → lowNibble r.1 = 0xF#4) ∧
    (familyField r.2 = 0xE#4 ∨ familyField r.2 = 0xF#4 → kkField r.1 = 0xFF#8) :=
  forall_mem_opcodeRows (by decide)

theorem match_not_unknown : ∀ r ∈ opcodeRows, ¬ UnknownSpace r.2 := by
  unfold UnknownSpace
  exact forall_mem_opcodeRows (by decide)

theorem familyField_and (a b : Word) : familyField (a &&& b) = familyField a &&& familyField b :=
  BitVec.extractLsb'_and

theorem lowNibble_and (a b : Word) : lowNibble (a &&& b) = lowNibble a &&& lowNibble b :=
  BitVec.extractLsb'_and

theorem kkField_and (a b : Word) : kkField (a &&& b) = kkField a &&& kkField b :=
  BitVec.extractLsb'_and

/-- R106: the match of a row that selects an UNKNOWN word would be UNKNOWN as well. -/
theorem unknownSpace_match {r : Word × Word} (hr : r ∈ opcodeRows) (hs : selects w r = true) (hw : UnknownSpace w) :
    UnknownSpace r.2 := by
  have e : r.2 = w &&& r.1 := (of_decide_eq_true hs).symm
  obtain ⟨hm, hm0, hm8, hmk⟩ := mask_covers_selector r hr
  have family : familyField r.2 = familyField w := by
    rw [e, familyField_and, hm]
    exact BitVec.and_allOnes
  rw [family] at hm0 hm8 hmk
  unfold UnknownSpace
  rw [family]
  rcases hw with ⟨hf, hn⟩ | ⟨hf, hn⟩ | ⟨hf, hn⟩ | ⟨hf, hn⟩
  · have word : r.2 = w := by rw [e, hm0 hf]; exact BitVec.and_allOnes
    exact .inl ⟨hf, word ▸ hn⟩
  · have low : lowNibble r.2 = lowNibble w := by rw [e, lowNibble_and, hm8 hf]; exact BitVec.and_allOnes
    exact .inr (.inl ⟨hf, low ▸ hn⟩)
  · have kk : kkField r.2 = kkField w := by rw [e, kkField_and, hmk (.inl hf)]; exact BitVec.and_allOnes
    exact .inr (.inr (.inl ⟨hf, kk ▸ hn⟩))
  · have kk : kkField r.2 = kkField w := by rw [e, kkField_and, hmk (.inr hf)]; exact BitVec.and_allOnes
    exact .inr (.inr (.inr ⟨hf, kk ▸ hn⟩))

/-- R105: no row selects an UNKNOWN word. -/
theorem filter_selects_of_unknown (hw : UnknownSpace w) : opcodeRows.filter (selects w) = [] :=
  List.filter_eq_nil_iff.mpr fun r hr hs => match_not_unknown r hr (unknownSpace_match hr hs hw)

/-- Settles O3: `filter_selects_of_spells` for a word that decodes, `filter_selects_of_unknown` for UNKNOWN. -/
theorem everyWordIsSelectedByExactlyItsRow : Obligations.EveryWordIsSelectedByExactlyItsRow := by
  refine ⟨rfl, fun w => ?_⟩
  split
  case h_1 i h => exact filter_selects_of_spells (spells_of_decode h)
  case h_2 op h => exact filter_selects_of_unknown (decode_eq_unknown_iff.mp (decode_unknown h ▸ h))

end Sys2Proof
end

section
/-! The step (40_engine.md): what STEP answers in each of its cases, that it always answers a state, and where each
instruction leaves PC. -/

namespace Sys2Proof.Machine

variable {i : Instr} {s u : State}

/-! ## The cases of STEP (R140, R141, R145) -/

theorem step_of_halted (hh : s.halted = true) : step s = .next s :=
  if_pos hh

theorem step_of_pc_beyond_memory (hh : s.halted = false) (hpc : 4096 ≤ s.pc.toNat + 1) :
    step s = .next (s.lock.raise .fetchError (max s.pc.toNat 4096)) := by
  have hf : s.lock.fetch = none := fetch_eq_none hpc
  simp only [step, hh, hf]
  rfl

theorem step_of_unknown {op w : Word} (hh : s.halted = false) (hf : s.fetch = some op) (hd : decode op = .unknown w) :
    step s = .next s.lock.advance := by
  have hl : s.lock.fetch = some op := hf
  simp only [step, hh, hl, hd]
  rfl

/-- Settles O7: the equation of `step` for each of its cases. -/
theorem stepRunsTheDecodedInstruction : Obligations.StepRunsTheDecodedInstruction :=
  ⟨fun _ => step_of_halted, fun _ => step_of_pc_beyond_memory,
    fun _ _ hh hpc => step_of_fetch hh (fetch_eq_some hpc),
    fun _ _ hh hpc => step_of_unknown hh (fetch_eq_some hpc), wordOfBytes_toNat⟩

/-- Every step answers a next state. -/
theorem step_next (s : State) : ∃ t, step s = .next t := by
  rcases step_cases s with ⟨_, he⟩ | ⟨_, _, he⟩ | ⟨op, _, _, _, ⟨i, _, he⟩ | ⟨_, he⟩⟩
  · exact ⟨_, he⟩
  · exact ⟨_, he⟩
  · exact he ▸ exec_next i s.lock
  · exact ⟨_, he⟩

/-- Settles O8, by `exec_next` and `step_next`. -/
theorem everyStepAnswersANextState : Obligations.EveryStepAnswersANextState :=
  ⟨exec_next, step_next⟩

/-! ## The four ways to write PC (R143) -/

/-- An outcome is a next state whose PC is, as a natural, `n`. -/
def Result.LeavesPc (r : Result) (n : Nat) : Prop := ∃ t, r = .next t ∧ t.pc.toNat = n

/-- Adding to a PC that can be fetched from does not wrap. -/
theorem pc_add_toNat (h : s.pc.toNat ≤ 4094) (k : Word) (hk : k.toNat ≤ 4) :
    (s.pc + k).toNat = s.pc.toNat + k.toNat := by
  rw [BitVec.toNat_add]
  exact Nat.mod_eq_of_lt (by omega)

/-- Advance: PC is `PC + 2`, counted from where the instruction's own writes left it. -/
theorem leavesPc_advance (h : s.pc.toNat ≤ 4094) (hu : u.pc = s.pc) :
    Result.LeavesPc (.next u.advance) (s.pc.toNat + 2) :=
  ⟨_, rfl, (congrArg (fun w : Word => (w + 2#16).toNat) hu).trans (pc_add_toNat h 2#16 (by decide))⟩

/-- Skip: PC is `PC + 4` when the condition holds, else `PC + 2`. -/
theorem leavesPc_skipIf (h : s.pc.toNat ≤ 4094) {c : Bool} {p : Prop} [Decidable p] (hc : c = true ↔ p) :
    Result.LeavesPc (.next (s.skipIf c)) (if p then s.pc.toNat + 4 else s.pc.toNat + 2) := by
  split
  case isTrue hp =>
    obtain rfl : c = true := hc.mpr hp
    exact ⟨_, rfl, pc_add_toNat h 4#16 (by decide)⟩
  case isFalse hp =>
    obtain rfl : c = false := by simpa using mt hc.mp hp
    exact leavesPc_advance h rfl

/-- Skip on the failure of a condition. -/
theorem leavesPc_skipIf_not (h : s.pc.toNat ≤ 4094) {c : Bool} {p : Prop} [Decidable p] (hc : c = true ↔ ¬ p) :
    Result.LeavesPc (.next (s.skipIf c)) (if p then s.pc.toNat + 2 else s.pc.toNat + 4) :=
  ite_not p (s.pc.toNat + 4) (s.pc.toNat + 2) ▸ leavesPc_skipIf h hc

/-- Redirect: the sum of a 12-bit address and a byte does not wrap (R169). -/
theorem jumpTarget_toNat (s : State) (nnn : Addr) : (s.jumpTarget nnn).toNat = nnn.toNat + s.v[0].toNat := by
  have hn := nnn.isLt
  have hb := (s.reg 0).isLt
  show _ = nnn.toNat + (s.reg 0).toNat
  simp only [State.jumpTarget, byteWord, BitVec.toNat_add, addrWord_toNat, BitVec.toNat_setWidth]
  omega

/-! ## Where an instruction that raises no fault leaves PC -/

/-- Where R320 gives no fault its condition is false. -/
theorem not_of_raises_ite {p : Prop} [Decidable p] {f : FaultCode × Nat} (h : (if p then some f else none) = none) :
    ¬ p := by
  simpa using h

/-- R71: a range check passes when no address is beyond memory. -/
theorem guardRange_of_inside {base len : Nat} (hin : ¬ (0 < len ∧ 4096 ≤ base + len - 1)) (n : State) :
    guardRange base len s n = .next n :=
  if_neg (mt (outOfRange_iff base len).mp (by omega))

/-- An instruction behind a range check that passes advances. -/
theorem leavesPc_of_guardRange (h : s.pc.toNat ≤ 4094) {base len : Nat}
    (he : exec i s = guardRange base len s u.advance) (hu : u.pc = s.pc)
    (hin : ¬ (0 < len ∧ 4096 ≤ base + len - 1)) : Result.LeavesPc (exec i s) (s.pc.toNat + 2) :=
  he.trans (guardRange_of_inside hin _) ▸ leavesPc_advance h hu

/-- R293, R294: a skip on a key that exists. -/
theorem skipOnKey_of_not_lt {x : Reg} (hx : ¬ 15 < (s.reg x).toNat) (held : Bool) :
    skipOnKey x held s = .next (s.skipIf (s.keyHeld (s.reg x).toNat == held)) :=
  if_neg hx

/-- R160: a push with a free slot. -/
theorem push_of_lt (hsp : s.sp.val < 16) (w : Word) :
    s.push w = some (s.setStack (s.stack.set s.sp.val w) ⟨s.sp.val + 1, by omega⟩) :=
  dif_pos hsp

/-- R161: a pop with a slot in use. -/
theorem pop_of_pos (hsp : 0 < s.sp.val) :
    s.pop = some (s.stack[s.sp.val - 1], s.setStack s.stack ⟨s.sp.val - 1, by omega⟩) :=
  dif_pos hsp

theorem call_leavesPc (nnn : Addr) (hsp : s.sp.val < 16) : Result.LeavesPc (exec (.call nnn) s) nnn.toNat := by
  simp only [exec, execCall, push_of_lt hsp]
  exact ⟨_, rfl, addrWord_toNat nnn⟩

theorem ret_leavesPc (hsp : 0 < s.sp.val) : Result.LeavesPc (exec .ret s) (pcAfter .ret s) := by
  have htop : s.sp.val - 1 < 16 := by omega
  simp only [exec, execRet, pop_of_pos hsp]
  exact ⟨_, rfl, by simp [pcAfter, htop]⟩

theorem ldVxK_leavesPc (x : Reg) (h : s.pc.toNat ≤ 4094) :
    Result.LeavesPc (exec (.ldVxK x) s) (if s.key = 0 then s.pc.toNat else s.pc.toNat + 2) := by
  split
  case isTrue hk => exact ⟨s, exec_ldVxK_of_no_key x hk, rfl⟩
  case isFalse hk =>
    obtain ⟨k, he⟩ := exec_ldVxK_of_key x hk
    exact he ▸ leavesPc_advance h rfl

/-- R143: an instruction that raises no fault leaves PC where its class says. -/
theorem exec_leavesPc (hr : raises i s = none) (h : s.pc.toNat ≤ 4094) :
    Result.LeavesPc (exec i s) (pcAfter i s) := by
  cases i with
  | jp nnn => exact ⟨_, rfl, addrWord_toNat nnn⟩
  | jpV0Addr nnn => exact ⟨_, rfl, jumpTarget_toNat s nnn⟩
  | call nnn => exact call_leavesPc nnn (by have := not_of_raises_ite hr; omega)
  | ret => exact ret_leavesPc (Nat.pos_of_ne_zero (not_of_raises_ite hr))
  | seVxKk | seVxVy => exact leavesPc_skipIf h decide_eq_true_iff
  | sneVxKk | sneVxVy => exact leavesPc_skipIf_not h decide_eq_true_iff
  | skpVx x =>
    have he : exec (.skpVx x) s = _ := skipOnKey_of_not_lt (not_of_raises_ite hr) true
    exact he ▸ leavesPc_skipIf h beq_iff_eq
  | sknpVx x =>
    have he : exec (.sknpVx x) s = _ := skipOnKey_of_not_lt (not_of_raises_ite hr) false
    exact he ▸ leavesPc_skipIf_not h (by simp [State.keyHeld, State.reg])
  | ldVxK x => exact ldVxK_leavesPc x h
  | drwVxVyN => exact leavesPc_of_guardRange h rfl rfl (not_of_raises_ite hr)
  | ldBVx => exact leavesPc_of_guardRange h rfl (writeBytes_pc _ _) fun hout => not_of_raises_ite hr hout.2
  | ldMemVx => exact leavesPc_of_guardRange h rfl (writeBytes_pc _ _) fun hout => not_of_raises_ite hr hout.2
  | ldVxMem => exact leavesPc_of_guardRange h rfl rfl fun hout => not_of_raises_ite hr hout.2
  | cls | ldVxKk | addVxKk | ldVxVy | orVxVy | andVxVy | xorVxVy | addVxVy | subVxVy | shrVx | subnVxVy | shlVx
  | ldIAddr | rndVxKk | ldVxDt | ldDtVx | ldStVx | addIVx | ldFVx => exact leavesPc_advance h rfl

/-- R321: where R320 gives an instruction a fault, executing it takes that fault. -/
theorem exec_of_raises {c : FaultCode} {a : Nat} (hr : raises i s = some (c, a)) :
    exec i s = .next (s.raise c a) := by
  rcases executes i s with ⟨c', a', hr', he⟩ | ⟨hnone, _⟩
  · cases hr.symm.trans hr'
    exact he
  · cases hr.symm.trans hnone

/-- Settles O9: `exec_leavesPc`, the advance of an UNKNOWN word, and a fault taken at its own PC. -/
theorem pcMovesByTheClassOfTheInstruction : Obligations.PcMovesByTheClassOfTheInstruction := by
  refine ⟨fun i s => exec_leavesPc, fun s h => leavesPc_advance h rfl, fun i s hr => ?_⟩
  obtain ⟨⟨c, a⟩, hr⟩ := Option.ne_none_iff_exists'.mp hr
  exact ⟨_, exec_of_raises hr, rfl⟩

end Sys2Proof.Machine
end

section
/-! Control flow (41_flow.md): what the jumps, CALL, RET and the skips on registers answer, whole states at a time. -/

namespace Sys2Proof.Machine

variable {s : State}

/-! ## Writes of PC alone -/

theorem sameButPc_setPc (s : State) (w : Word) : SameButPc s (s.setPc w) :=
  ⟨rfl, fun _ => rfl⟩

/-- Settles O10: both jumps are one write of PC, and `jumpTarget_toNat` says that the sum does not wrap. -/
theorem jumpsWriteOnlyPc : Obligations.JumpsWriteOnlyPc :=
  ⟨fun nnn s => ⟨_, rfl, addrWord_toNat nnn, sameButPc_setPc s _⟩,
    fun nnn s => ⟨_, rfl, jumpTarget_toNat s nnn, sameButPc_setPc s _⟩⟩

/-- R144: a skip writes `PC + 4` or `PC + 2`, as the condition says, and nothing else. -/
theorem skipIf_sameButPc {c : Bool} {p : Prop} [Decidable p] (hc : c = true ↔ p) :
    ∃ t, (.next (s.skipIf c) : Result) = .next t ∧ t.pc = (if p then s.pc + 4 else s.pc + 2) ∧ SameButPc s t := by
  refine ⟨_, rfl, ?_, ?_⟩ <;> rw [skipIf_eq]
  · exact if_congr hc rfl rfl
  · exact sameButPc_setPc s _

/-- Settles O14: each of the four is `skipIf` on its own comparison. -/
theorem registerSkipsCompareAndSkip : Obligations.RegisterSkipsCompareAndSkip := fun _ _ _ _ =>
  ⟨skipIf_sameButPc decide_eq_true_iff, skipIf_sameButPc decide_eq_true_iff,
    skipIf_sameButPc decide_eq_true_iff, skipIf_sameButPc decide_eq_true_iff⟩

/-! ## CALL and RET -/

/-- R164: CALL with a free slot. -/
theorem exec_call_of_lt (nnn : Addr) (hsp : s.sp.val < 16) : exec (.call nnn) s =
    .next ((s.setStack (s.stack.set s.sp.val s.npc) ⟨s.sp.val + 1, by omega⟩).setPc (addrWord nnn)) := by
  simp only [exec, execCall, push_of_lt hsp]

/-- R162: RET with a slot in use. -/
theorem exec_ret_of_pos (hsp : 0 < s.sp.val) : exec .ret s =
    .next ((s.setStack s.stack ⟨s.sp.val - 1, by omega⟩).setPc s.stack[s.sp.val - 1]) := by
  simp only [exec, execRet, pop_of_pos hsp]

/-- Settles O11, by `exec_call_of_lt`, and `exec_of_raises` on a full stack. -/
theorem callPushesOrOverflows : Obligations.CallPushesOrOverflows := by
  refine ⟨fun nnn s hsp => ⟨_, exec_call_of_lt nnn hsp, rfl, ?pushed, addrWord_toNat nnn, fun j hj => ?kept, rfl,
    fun _ => rfl⟩, fun nnn s hsp => exec_of_raises (if_pos hsp)⟩
  case pushed => exact Vector.getElem_set_self hsp
  case kept => exact Vector.getElem_set_ne hsp j.isLt hj.symm

/-- Settles O12, by `exec_ret_of_pos`, and `exec_of_raises` on an empty stack. -/
theorem retPopsOrUnderflows : Obligations.RetPopsOrUnderflows :=
  ⟨fun _ hsp => ⟨_, exec_ret_of_pos hsp, rfl, rfl, rfl, fun _ => rfl⟩,
    fun _ hsp => exec_of_raises (if_pos hsp)⟩

/-- R162, R164: RET after CALL takes the pushed address off the stack and leaves it in its slot. -/
theorem exec_ret_of_called (nnn : Addr) (hsp : s.sp.val < 16) :
    exec .ret ((s.setStack (s.stack.set s.sp.val s.npc) ⟨s.sp.val + 1, by omega⟩).setPc (addrWord nnn)) =
      .next { s with pc := s.npc, stack := s.stack.set s.sp.val s.npc } := by
  refine (exec_ret_of_pos (Nat.succ_pos _)).trans ?_
  simp [State.setStack, State.setPc]

/-- Settles O13, by `exec_call_of_lt` and `exec_ret_of_called`: the slots in use lie below the one written. -/
theorem callThenRetResumesAfterTheCall : Obligations.CallThenRetResumesAfterTheCall := fun nnn _ hsp =>
  ⟨_, _, exec_call_of_lt nnn hsp, exec_ret_of_called nnn hsp, rfl,
    fun j hj => Vector.getElem_set_ne hsp j.isLt (Nat.ne_of_gt hj)⟩

end Sys2Proof.Machine
end

section
/-! Registers and the ALU (42_alu.md): the whole state after a write of `V[x]`, and after the two writes of an
instruction that sets the flag, and the wrapped results and shifted bits as numbers. -/

namespace Sys2Proof.Machine

/-! ## One write, and the result with its flag -/

section
variable (s : State) (x : Reg)

/-- R9, R143: what is there once `V[x]` is written and PC moved on. -/
theorem advance_setReg_effect (b : Byte) : (s.setReg x b).advance.v[x.val] = b ∧
    OtherRegsKept x s (s.setReg x b).advance ∧ (s.setReg x b).advance.pc = s.pc + 2 ∧
    SameButRegsPc s (s.setReg x b).advance :=
  ⟨v_set_same s.v x b, fun _ hj => v_set_ne s.v b hj, rfl, rfl, fun _ => rfl⟩

/-- R191: what is there after an instruction that writes a result and then its flag. `flagIs` is what the instruction's
rule says of VF: its byte, or that byte as a number. -/
theorem exec_of_writeResultFlag {i : Instr} {r : Byte} {f : Bool} {n : Nat} (flagIs : Byte → Prop)
    (he : exec i s = .next (s.writeResultFlag x r f).advance) (hr : r.toNat = n) (hflag : flagIs (flagByte f)) :
    ∃ t, exec i s = .next t ∧ (x ≠ 15 → t.v[x.val].toNat = n) ∧ flagIs t.v[15] ∧
      OtherRegsKeptButVF x s t ∧ t.pc = s.pc + 2 ∧ SameButRegsPc s t := by
  have hvf : (s.writeResultFlag x r f).advance.v[15] = flagByte f := writeResultFlag_vf x r f
  refine ⟨_, he, fun hx => ?result, hvf ▸ hflag, fun _ => writeResultFlag_other r f, rfl, rfl, fun _ => rfl⟩
  case result => exact (congrArg BitVec.toNat (writeResultFlag_x r f hx)).trans hr

end

/-! ## Results and shifted bits as numbers (R190) -/

section
variable (a b : Byte)

/-- R199, R201: a difference of bytes wraps modulo 256. -/
theorem byte_sub_toNat : (a - b).toNat = (a.toNat + 256 - b.toNat) % 256 := by
  rw [BitVec.toNat_sub, Nat.add_comm, ← Nat.add_sub_assoc (Nat.le_of_lt b.isLt)]

theorem flagByte_toNat (f : Bool) : (flagByte f).toNat = f.toNat := by
  cases f <;> rfl

/-- R200: the bit SHR shifts out is the remainder. -/
theorem flagByte_shiftedOutLow_toNat : (flagByte (shiftedOutLow a)).toNat = a.toNat % 2 := by
  rw [flagByte_toNat, shiftedOutLow, BitVec.getLsbD, Nat.toNat_testBit]
  simp

/-- R202: the bit SHL shifts out is the most significant one. -/
theorem flagByte_shiftedOutHigh_toNat : (flagByte (shiftedOutHigh a)).toNat = a.toNat / 128 := by
  have := a.isLt
  rw [flagByte_toNat, shiftedOutHigh, BitVec.getLsbD, Nat.toNat_testBit]
  omega

theorem byte_shiftRight_one_toNat : (a >>> 1).toNat = a.toNat / 2 := by
  rw [BitVec.toNat_ushiftRight, Nat.shiftRight_one]

theorem byte_shiftLeft_one_toNat : (a <<< 1).toNat = a.toNat * 2 % 256 := by
  rw [BitVec.toNat_shiftLeft, Nat.shiftLeft_eq]

end

/-! ## The instructions -/

/-- Settles O17: the sum wraps, and the carry is a comparison of the unwrapped sum. -/
theorem addRegistersWrapsAndSetsCarry : Obligations.AddRegistersWrapsAndSetsCarry := fun x _ s =>
  exec_of_writeResultFlag s x (· = _) rfl (BitVec.toNat_add _ _) (flagByte_decide _)

/-- Settles O18, by `byte_sub_toNat`. -/
theorem subWrapsAndSetsStrictGreater : Obligations.SubWrapsAndSetsStrictGreater := fun x _ s =>
  exec_of_writeResultFlag s x (· = _) rfl (byte_sub_toNat _ _) (flagByte_decide _)

/-- Settles O19, by `byte_sub_toNat` with the operands exchanged. -/
theorem subnWrapsAndSetsStrictGreater : Obligations.SubnWrapsAndSetsStrictGreater := fun x _ s =>
  exec_of_writeResultFlag s x (· = _) rfl (byte_sub_toNat _ _) (flagByte_decide _)

/-- Settles O20: each shift and the bit it shifts out, as numbers. -/
theorem shiftsMoveOneBitAndKeepTheBitShiftedOut : Obligations.ShiftsMoveOneBitAndKeepTheBitShiftedOut := fun x s =>
  ⟨exec_of_writeResultFlag s x (·.toNat = _) rfl (byte_shiftRight_one_toNat _) (flagByte_shiftedOutLow_toNat _),
    exec_of_writeResultFlag s x (·.toNat = _) rfl (byte_shiftLeft_one_toNat _) (flagByte_shiftedOutHigh_toNat _)⟩

/-- Settles O15: each of the five is one write of `V[x]`. -/
theorem loadsAndLogicWriteOnlyTheirRegister : Obligations.LoadsAndLogicWriteOnlyTheirRegister := fun x _ _ s =>
  ⟨⟨_, rfl, advance_setReg_effect s x _⟩, ⟨_, rfl, advance_setReg_effect s x _⟩,
    ⟨_, rfl, advance_setReg_effect s x _⟩, ⟨_, rfl, advance_setReg_effect s x _⟩,
    ⟨_, rfl, advance_setReg_effect s x _⟩⟩

/-- Settles O16: one write of `V[x]`, of the wrapped sum. -/
theorem addImmediateWrapsWithoutFlag : Obligations.AddImmediateWrapsWithoutFlag := by
  intro x kk s
  obtain ⟨hsum, hframe⟩ := advance_setReg_effect s x (s.reg x + kk)
  exact ⟨_, rfl, (congrArg BitVec.toNat hsum).trans (BitVec.toNat_add _ _), hframe⟩

/-- Settles O21: one write of `V[x]`, in the state that has taken the draw. -/
theorem rndMasksAFreshDraw : Obligations.RndMasksAFreshDraw := by
  intro x kk s
  obtain ⟨hbyte, hregs, hpc, -, hmem⟩ := advance_setReg_effect s.drawByte.2 x (s.drawByte.1 &&& kk)
  exact ⟨_, rfl, hbyte, rfl, hregs, hpc, rfl, hmem⟩

end Sys2Proof.Machine
end

section
/-! The index register and memory (43_index_memory.md): what the writes of I leave, where the block moves and the decimal
digits go, and what reads back after them. -/

namespace Sys2Proof.Machine

variable {s : State} {x : Reg}

/-! ## Memory moves (R233 to R235) -/

/-- Moving PC on leaves memory. -/
@[simp] theorem advance_readByte (s : State) (a : Nat) : s.advance.readByte a = s.readByte a := rfl

/-- R71, R143: storing bytes and moving PC on leaves every other byte and every other piece of state. -/
theorem advance_writeBytes_frame (s : State) (a : Nat) {bs : List Byte} {n : Nat} (hn : bs.length = n) :
    (∀ a', a' < a ∨ a + n ≤ a' → (s.writeBytes a bs).advance.readByte a' = s.readByte a') ∧
      (s.writeBytes a bs).advance = { s with mem := (s.writeBytes a bs).advance.mem, pc := s.pc + 2 } := by
  subst hn
  refine ⟨fun _ => State.readByte_writeBytes_outside bs a s, ?_⟩
  rw [State.writeBytes_eq]
  rfl

/-- R235, R143: loading the registers and moving PC on writes V and PC alone. -/
theorem advance_setRegs_frame (s : State) (v : Vector Byte 16) :
    (s.setRegs v).advance.pc = s.pc + 2 ∧ SameButRegsPc s (s.setRegs v).advance :=
  ⟨rfl, rfl, fun _ => rfl⟩

/-- R233, inside memory: the digits stored, and PC moved on. -/
theorem exec_ldBVx_of_lt (h : s.base + 2 < 4096) :
    exec (.ldBVx x) s = .next (s.writeBytes s.base (decimalDigits (s.reg x))).advance :=
  guardRange_of_lt h s _

/-- R235, inside memory: the registers loaded, and PC moved on. -/
theorem exec_ldVxMem_of_lt (h : s.base + x.val < 4096) :
    exec (.ldVxMem x) s = .next (s.setRegs (s.loadedRegs x)).advance :=
  guardRange_of_lt h s _

/-- R233: after LD B, `MEM[I + j]` is digit j, which as a number not above the byte is not reduced. -/
theorem readByte_writeBytes_decimalDigits (hwf : s.mem.wf s.params) (h : s.base + 2 < 4096) {b : Byte} {n : Nat}
    (j : Nat) (hj : j < 3) (hdigit : (decimalDigits b)[j]'hj = BitVec.ofNat 8 n) (hn : n ≤ b.toNat) :
    ((s.writeBytes s.base (decimalDigits b)).advance.readByte (s.base + j)).toNat = n := by
  rw [advance_readByte, State.readByte_writeBytes_inside (decimalDigits b) _ s hwf h j hj, hdigit, BitVec.toNat_ofNat]
  exact Nat.mod_eq_of_lt (hn.trans_lt b.isLt)

/-- Settles O25: the three digits read back; beyond memory, the fault of R320's table. -/
theorem bcdStoresThreeDigitsOrFaults : Obligations.BcdStoresThreeDigitsOrFaults := by
  refine ⟨fun x s h => ⟨_, exec_ldBVx_of_lt h, fun hwf => ⟨?hundreds, ?tens, ?units⟩,
    advance_writeBytes_frame s _ rfl⟩, fun _ _ h => exec_of_raises (if_pos h)⟩
  case hundreds => exact readByte_writeBytes_decimalDigits hwf h 0 (by decide) rfl (Nat.div_le_self _ _)
  case tens =>
    exact readByte_writeBytes_decimalDigits hwf h 1 (by decide) rfl ((Nat.mod_le _ _).trans (Nat.div_le_self _ _))
  case units => exact readByte_writeBytes_decimalDigits hwf h 2 (by decide) rfl (Nat.mod_le _ _)

/-- Settles O26: the stored block reads back, in the frame of a store of `x + 1` bytes. -/
theorem blockStoreStoresV0ToVxOrFaults : Obligations.BlockStoreStoresV0ToVxOrFaults :=
  ⟨fun x s h => ⟨_, exec_ldMemVx_of_lt h, fun hwf _ => readByte_writeBytes_regBlock hwf h,
    advance_writeBytes_frame s _ (regBlock_length x)⟩, fun _ _ h => exec_of_raises (if_pos h)⟩

/-- Settles O27: `loadedRegs_get` on either side of `x`; beyond memory, the fault of R320's table. -/
theorem blockLoadLoadsV0ToVxOrFaults : Obligations.BlockLoadLoadsV0ToVxOrFaults := by
  refine ⟨fun x s h => ⟨_, exec_ldVxMem_of_lt h, fun j hj => ?loaded, fun j hj => ?kept,
    advance_setRegs_frame s _⟩, fun _ _ h => exec_of_raises (if_pos h)⟩
  case loaded => exact (loadedRegs_get x j).trans (if_pos hj)
  case kept => exact (loadedRegs_get x j).trans (if_neg (Fin.not_le.mpr hj))

/-- Settles O28, from O26 and O27: the store leaves I, so the load reads the bytes stored. -/
theorem blockStoreThenBlockLoadRestoresRegisters : Obligations.BlockStoreThenBlockLoadRestoresRegisters := by
  intro x s v hwf h
  obtain ⟨t, hstore, hbytes, -, ht⟩ := blockStoreStoresV0ToVxOrFaults.1 x s h
  have hi : t.i = s.i := by rw [ht]
  obtain ⟨u, hload, hlow, hhigh, -, hu, -⟩ := blockLoadLoadsV0ToVxOrFaults.1 x { t with v := v } (hi ▸ h)
  refine ⟨t, u, hstore, hload, fun j hj => ?restored, hhigh, by rw [hu, ← hi]⟩
  case restored =>
    calc u.v[j.val] = t.readByte (t.i.toNat + j.val) := hlow j hj
      _ = t.readByte (s.base + j.val) := by rw [hi, State.base]
      _ = s.v[j.val] := hbytes hwf j hj

/-! ## Writes of I (R230 to R232) -/

/-- What is there after an instruction that writes I and moves PC on. -/
theorem exec_of_setI {i : Instr} {w : Word} {n : Nat} (he : exec i s = .next (s.setI w).advance) (hw : w.toNat = n) :
    ∃ t, exec i s = .next t ∧ t.i.toNat = n ∧ t = { s with i := t.i, pc := s.pc + 2 } ∧
      ∀ a, t.readByte a = s.readByte a :=
  ⟨_, he, hw, rfl, fun _ => rfl⟩

/-- R232: the glyph address is five times the low nibble. -/
theorem glyphAddress_toNat (b : Byte) : (glyphAddress b).toNat = 5 * (b.toNat % 16) := by
  have hnibble : (b &&& 0x0F#8).toNat = b.toNat % 16 := Nat.and_two_pow_sub_one_eq_mod b.toNat 4
  show (BitVec.ofNat 16 (0 + 5 * (b &&& 0x0F#8).toNat)).toNat = _
  rw [hnibble, BitVec.toNat_ofNat]
  omega

/-- R231: the sum as the parameter reduces it. Either remainder is below `2^16`, so the word holds it whole. -/
theorem indexSum_toNat (s : State) (b : Byte) :
    (s.indexSum b).toNat = (s.i.toNat + b.toNat) % (if s.params.iMask12 = true then 4096 else 65536) := by
  rw [State.indexSum, State.base, BitVec.toNat_ofNat]
  split <;> omega

/-- Settles O23: each of the two is one write of I. -/
theorem loadsOfTheIndexRegister : Obligations.LoadsOfTheIndexRegister :=
  ⟨fun nnn _ => exec_of_setI rfl (addrWord_toNat nnn), fun _ _ => exec_of_setI rfl (glyphAddress_toNat _)⟩

/-- Settles O24: one write of I, of the sum of `indexSum_toNat`. -/
theorem addIndexReducesAsTheParameterSays : Obligations.AddIndexReducesAsTheParameterSays := fun _ s =>
  exec_of_setI rfl (indexSum_toNat s _)

end Sys2Proof.Machine
end

section
/-! The display (44_display.md): what a drawing flips and what it collides with, from one cell up to the whole sprite,
and what CLS and DRW answer. -/

namespace Sys2Proof.Machine

variable {s t : State} {x y : Reg} {n : Fin 16}

/-! ## CLS -/

/-- Settles O30: CLS writes the clear display, and moves PC on. -/
theorem clsClearsEveryCell : Obligations.ClsClearsEveryCell := fun _ =>
  ⟨_, rfl, Display.cell_clear, rfl, fun _ => rfl⟩

/-! ## What a drawing flips -/

/-- The cells that `C` covers are the ones that `f` flips, whatever the display, and `f` records a collision exactly
when one of them was set. -/
structure Flips (f : Blit → Blit) (C : Fin 32 → Fin 64 → Prop) : Prop where
  cell (p : Blit) (r : Fin 32) (c : Fin 64) : Display.cell (f p).1 r c ≠ Display.cell p.1 r c ↔ C r c
  collision (p : Blit) : (f p).2 = true ↔ p.2 = true ∨ ∃ r c, Display.cell p.1 r c = true ∧ C r c

section
variable {f g : Blit → Blit} {C D : Fin 32 → Fin 64 → Prop}

theorem Flips.cell_eq_of_not (h : Flips f C) {p : Blit} {r : Fin 32} {c : Fin 64} (hC : ¬ C r c) :
    Display.cell (f p).1 r c = Display.cell p.1 r c :=
  not_ne_iff.mp (mt (h.cell p r c).mp hC)

theorem Flips.congr (h : Flips f C) (hD : ∀ r c, D r c ↔ C r c) : Flips f D := by
  obtain rfl : D = C := funext₂ fun r c => propext (hD r c)
  exact h

/-- Two drawings that cover no cell in common cover together what either covers: the second finds its own cells as they
were before the first. -/
theorem Flips.comp (hf : Flips f C) (hg : Flips g D) (hdisj : ∀ r c, C r c → ¬ D r c) :
    Flips (g ∘ f) fun r c => C r c ∨ D r c where
  cell p r c := by
    have hfirst := hf.cell p r c
    have hsecond := hg.cell (f p) r c
    by_cases hC : C r c
    · have hkept := hg.cell_eq_of_not (p := f p) (hdisj r c hC)
      simpa [hC, hkept] using hfirst
    · rw [hf.cell_eq_of_not hC] at hsecond
      simpa [hC] using hsecond
  collision p := by
    have hbefore (r c) : Display.cell (f p).1 r c = true ∧ D r c ↔ Display.cell p.1 r c = true ∧ D r c :=
      and_congr_left fun hD => by rw [hf.cell_eq_of_not fun hC => hdisj r c hC hD]
    rw [Function.comp_apply, hg.collision, hf.collision]
    simp only [hbefore, and_or_left, exists_or, or_assoc]

/-- Drawings in turn, no cell covered by two of them. -/
theorem Flips.foldl_range {f : Nat → Blit → Blit} {C : Nat → Fin 32 → Fin 64 → Prop} (m : Nat)
    (h : ∀ k < m, Flips (f k) (C k)) (hdisj : ∀ j k r c, j < k → k < m → C j r c → ¬ C k r c) :
    Flips (fun p => (List.range m).foldl (fun p k => f k p) p) fun r c => ∃ k < m, C k r c := by
  induction m with
  | zero => exact ⟨by simp, by simp⟩
  | succ m ih =>
    have hbelow := ih (fun k hk => h k (Nat.lt_succ_of_lt hk))
      fun j k r c hjk hk => hdisj j k r c hjk (Nat.lt_succ_of_lt hk)
    have hlast := hbelow.comp (h m m.lt_succ_self)
      fun r c ⟨j, hj, hC⟩ => hdisj j m r c hj m.lt_succ_self hC
    simp only [List.range_succ, List.foldl_append]
    exact hlast.congr fun r c => Nat.exists_lt_succ_right

end

/-! ## From one cell to the sprite (R262) -/

/-- One sprite bit covers its cell when it is set. -/
theorem flips_plot (r : Fin 32) (c : Fin 64) (b : Bool) :
    Flips (plot r c b) fun r' c' => r' = r ∧ c' = c ∧ b = true where
  cell p r' c' := by
    rw [cell_plot]
    by_cases h : r' = r ∧ c' = c
    · obtain ⟨rfl, rfl⟩ := h
      cases b <;> simp
    · simp only [if_neg h, ne_eq, not_true_eq_false, false_iff]
      exact fun ⟨hr, hc, _⟩ => h ⟨hr, hc⟩
  collision p := by
    rw [collision_plot]
    cases b <;> simp

/-- A wrapped coordinate meets no cell twice in one pass over the axis. -/
theorem ofNat_add_ne {m : Nat} [NeZero m] (a : Nat) {j k : Nat} (hjk : j < k) (hk : k < m) :
    Fin.ofNat m (a + j) ≠ Fin.ofNat m (a + k) := by
  intro h
  have hmod : a + j ≡ a + k [MOD m] := Fin.val_eq_of_eq h
  exact Nat.ne_of_lt hjk ((Nat.ModEq.add_left_cancel' a hmod).eq_of_lt_of_lt (hjk.trans hk) hk)

/-- One sprite row covers the cells under its set bits: its 8 columns differ. -/
theorem flips_blitRow (cx cy : Nat) (row : Byte) :
    Flips (blitRow cx cy row) fun r c =>
      ∃ b < 8, r = Fin.ofNat 32 cy ∧ c = Fin.ofNat 64 (cx + b) ∧ spriteBit row b = true :=
  Flips.foldl_range 8 (fun b _ => flips_plot _ _ (spriteBit row b))
    fun _ _ _ _ hjk hk ⟨_, hj, _⟩ ⟨_, hk', _⟩ => ofNat_add_ne cx hjk (by omega) (hj.symm.trans hk')

/-- The sprite as its rows in turn. -/
theorem blit_map_range (cx cy : Nat) (rows : Nat → Byte) (m : Nat) (p : Blit) :
    blit cx cy ((List.range m).map rows) p =
      (List.range m).foldl (fun p k => blitRow cx (cy + k) (rows k) p) p := by
  induction m with
  | zero => rfl
  | succ m ih => simp [List.range_succ, blit_append, ih, blit]

/-- The sprite that DRW draws covers the cells of `SpriteCovers`: its rows, at most 15 of them, lie on different rows of
the display. -/
theorem flips_blit_readBytes (s : State) (x y : Reg) (n : Fin 16) :
    Flips (blit (s.reg x).toNat (s.reg y).toNat (s.readBytes s.base n.val)) (SpriteCovers s x y n) := by
  have hrows := Flips.foldl_range n.val
    (fun k _ => flips_blitRow (s.reg x).toNat ((s.reg y).toNat + k) (s.readByte (s.base + k)))
    fun _ _ _ _ hjk hk ⟨_, _, hj, _⟩ ⟨_, _, hk', _⟩ => ofNat_add_ne _ hjk (by omega) (hj.symm.trans hk')
  simp only [← blit_map_range] at hrows
  refine hrows.congr fun r c => ?_
  simp only [Fin.ext_iff]
  rfl

/-! ## DRW -/

/-- R262, inside memory: the sprite drawn, VF the collision, and PC moved on. -/
theorem exec_drwVxVyN_of_inside (h : n.val = 0 ∨ s.i.toNat + n.val ≤ 4096) :
    exec (.drwVxVyN x y n) s =
      let drawn := blit (s.reg x).toNat (s.reg y).toNat (s.readBytes s.base n.val) (s.disp, false)
      .next ((s.setDisp drawn.1).setReg regVF (flagByte drawn.2)).advance :=
  guardRange_of_inside (base := s.i.toNat) (by omega) _

/-- Settles O31: `flips_blit_readBytes`, with no collision before the drawing; beyond memory, the fault of R320's
table. -/
theorem drwFlipsExactlyTheCoveredCellsOrFaults : Obligations.DrwFlipsExactlyTheCoveredCellsOrFaults := by
  refine ⟨fun x y n s h => ?inside, fun x y n s hpos hout => exec_of_raises (if_pos ⟨hpos, hout⟩)⟩
  case inside =>
    have hflips := flips_blit_readBytes s x y n
    have hcoll := (hflips.collision (s.disp, false)).trans (or_iff_right Bool.false_ne_true)
    refine ⟨_, exec_drwVxVyN_of_inside h, hflips.cell (s.disp, false), fun hmet => ?collided, fun hnone => ?clear,
      fun _ hj => v_set_ne s.v _ hj, rfl, fun _ => rfl⟩
    case collided => exact (v_set_same s.v regVF _).trans (congrArg flagByte (hcoll.mpr hmet))
    case clear =>
      exact (v_set_same s.v regVF _).trans (congrArg flagByte (Bool.eq_false_of_not_eq_true (mt hcoll.mp hnone)))

/-! ## The same sprite twice (R263) -/

/-- A state with the same coordinates, I and bytes has the same cells covered. -/
theorem spriteCovers_congr (hx : t.v[x.val] = s.v[x.val]) (hy : t.v[y.val] = s.v[y.val]) (hi : t.i = s.i)
    (hmem : ∀ a, t.readByte a = s.readByte a) (r : Fin 32) (c : Fin 64) :
    SpriteCovers t x y n r c ↔ SpriteCovers s x y n r c := by
  simp only [SpriteCovers, State.base, hx, hy, hi, hmem]

/-- A sprite row that is not 0 has a set bit among its 8 columns. -/
theorem exists_getLsbD_of_ne_zero {row : Byte} (h : row ≠ 0) : ∃ b < 8, row.getLsbD (7 - b) = true := by
  by_contra! hnone
  refine h (BitVec.eq_of_getLsbD_eq fun i hi => ?_)
  have hbit := hnone (7 - i) (by omega)
  rw [Nat.sub_sub_self (by omega)] at hbit
  simpa using hbit

/-- A sprite that is not all 0 covers a cell. -/
theorem exists_spriteCovers (h : ∃ k < n.val, s.readByte (s.i.toNat + k) ≠ 0) :
    ∃ r c, SpriteCovers s x y n r c := by
  obtain ⟨k, hk, hrow⟩ := h
  obtain ⟨b, hb, hbit⟩ := exists_getLsbD_of_ne_zero hrow
  exact ⟨Fin.ofNat 32 _, Fin.ofNat 64 _, k, hk, b, hb, rfl, rfl, hbit⟩

/-- Settles O32, by O31 twice: the first drawing moves neither the coordinates nor the sprite, so the second flips the
same cells back, and each of them was set by the first where the display was clear. -/
theorem drawingTwiceRestoresTheDisplay : Obligations.DrawingTwiceRestoresTheDisplay := by
  intro x y n s hx hy h
  obtain ⟨t, hdraw, hflip, -, -, hregs, ht, hmem⟩ := drwFlipsExactlyTheCoveredCellsOrFaults.1 x y n s h
  have hi : t.i = s.i := by rw [ht]
  obtain ⟨u, hredraw, hflipBack, hvf, -⟩ := drwFlipsExactlyTheCoveredCellsOrFaults.1 x y n t (hi ▸ h)
  have hcovers := spriteCovers_congr (n := n) (hregs x hx) (hregs y hy) hi hmem
  refine ⟨t, u, hdraw, hredraw, Display.ext_cell fun r c => ?restored, fun hclear hsprite => hvf ?met⟩
  case restored =>
    by_cases hcov : SpriteCovers s x y n r c
    · rw [Bool.eq_not_of_ne ((hflipBack r c).mpr ((hcovers r c).mpr hcov)), Bool.eq_not_of_ne ((hflip r c).mpr hcov),
        Bool.not_not]
    · exact (not_ne_iff.mp (mt (hflipBack r c).mp (mt (hcovers r c).mp hcov))).trans
        (not_ne_iff.mp (mt (hflip r c).mp hcov))
  case met =>
    obtain ⟨r, c, hcov⟩ := exists_spriteCovers (x := x) (y := y) hsprite
    have hset := (hflip r c).mpr hcov
    rw [hclear r c] at hset
    exact ⟨r, c, Bool.eq_true_of_not_eq_false hset, (hcovers r c).mpr hcov⟩

end Sys2Proof.Machine
end

section
/-! Timers and input (45_timers_input.md): the writes of the timers, the key skips on either side of the last key, and
the key that the key wait takes. -/

namespace Sys2Proof.Machine

variable {s : State}

/-! ## The key wait (R295) -/

/-- The held key with no lower one held is the one that is looked up: the converse of `lowestKey_eq_some`. -/
theorem lowestKey_eq_some_of_lowest (k : Fin 16) (hheld : s.keyHeld k.val = true)
    (hlow : ∀ j < k.val, s.keyHeld j = false) : s.lowestKey = some k.val :=
  List.find?_range_eq_some.mpr ⟨hheld, List.mem_range.mpr k.isLt, fun j hj => by simp [hlow j hj]⟩

/-- R295: LD Vx,K with a key to take. -/
theorem exec_ldVxK_of_lowestKey (x : Reg) {k : Nat} (hk : s.lowestKey = some k) :
    exec (.ldVxK x) s = .next (s.setReg x (BitVec.ofNat 8 k)).advance := by
  simp only [exec, execLdVxK, hk]

/-- A key number fits in a register. -/
theorem keyByte_toNat (k : Fin 16) : (BitVec.ofNat 8 k.val).toNat = k.val := by
  rw [BitVec.toNat_ofNat]
  omega

/-- Settles O35: with a lowest held key, one write of `V[x]`; with no key, the latch is zero and the wait holds. -/
theorem keyWaitTakesTheLowestHeldKeyOrHolds : Obligations.KeyWaitTakesTheLowestHeldKeyOrHolds := by
  refine ⟨fun x s k hheld hlow => ?taken, fun x s hnone => ?holds⟩
  case taken =>
    have he := exec_ldVxK_of_lowestKey x (lowestKey_eq_some_of_lowest k hheld hlow)
    obtain ⟨hbyte, hframe⟩ := advance_setReg_effect s x (BitVec.ofNat 8 k.val)
    exact ⟨_, he, (congrArg BitVec.toNat hbyte).trans (keyByte_toNat k), hframe⟩
  case holds =>
    have hkey : s.key = 0#16 := BitVec.eq_of_getLsbD_eq fun j hj => (hnone j hj).trans BitVec.getLsbD_zero.symm
    exact exec_ldVxK_of_no_key x hkey

/-! ## The timers (R290 to R292) -/

/-- Settles O33: LD Vx,DT is one write of `V[x]`, and the other two are one write of a timer, each with PC moved on. -/
theorem timerInstructionsCopyTheirRegister : Obligations.TimerInstructionsCopyTheirRegister := fun x s =>
  ⟨⟨_, rfl, advance_setReg_effect s x s.dt⟩, ⟨_, rfl, rfl, fun _ => rfl⟩, ⟨_, rfl, rfl, fun _ => rfl⟩⟩

/-! ## The key skips (R293, R294) -/

/-- A skip on a key that exists writes PC alone, to `PC + 4` when the key is as the instruction asks. -/
theorem skipOnKey_sameButPc {x : Reg} (hx : (s.reg x).toNat ≤ 15) (held : Bool) :
    ∃ t, skipOnKey x held s = .next t ∧
      t.pc = (if s.keyHeld (s.reg x).toNat = held then s.pc + 4 else s.pc + 2) ∧ SameButPc s t :=
  skipOnKey_of_not_lt (Nat.not_lt.mpr hx) held ▸ skipIf_sameButPc beq_iff_eq

/-- Settles O34: each skip is `skipOnKey` for a key that exists; for a larger number, the fault of R320's table. -/
theorem keySkipsFollowTheLatchOrFault : Obligations.KeySkipsFollowTheLatchOrFault :=
  ⟨fun _ _ hx => ⟨skipOnKey_sameButPc hx true, skipOnKey_sameButPc hx false⟩,
    fun _ _ hx => ⟨exec_of_raises (if_pos hx), exec_of_raises (if_pos hx)⟩⟩

end Sys2Proof.Machine
end

section
/-! Faults and the host (60_exceptions.md): which fault an instruction and a step take, what each host operation does to
the state, and what every sequence of them keeps. -/

namespace Sys2Proof.Machine

variable {i : Instr} {s t : State}

/-! ## Faults (R320 to R322) -/

/-- R322: the address of a fault fits the 16 bits of FAULT_ADDR. -/
theorem FaultRecord.addr_toNat {c : FaultCode} {a : Nat} (hf : FaultRecord c a) : (BitVec.ofNat 16 a).toNat = a := by
  obtain ⟨_, ha⟩ := hf
  have hlt : a < 65536 := by split at ha <;> omega
  exact (BitVec.toNat_ofNat a 16).trans (Nat.mod_eq_of_lt hlt)

/-- An instruction that completes keeps the three status elements. -/
theorem Completes.status_eq (hc : Completes i s t) :
    t.halted = s.halted ∧ t.faultCode = s.faultCode ∧ t.faultAddr = s.faultAddr := by
  cases hc <;> exact ⟨rfl, rfl, rfl⟩

/-- R320, R321: where the table gives no fault, executing completes. -/
theorem exec_of_raises_none (hr : raises i s = none) : ∃ t, exec i s = .next t ∧ Completes i s t := by
  rcases executes i s with ⟨c, a, hsome, _⟩ | ⟨_, hc⟩
  · cases hr.symm.trans hsome
  · exact hc

/-- Settles O39: with a fault in the table, `exec_of_raises`; with none, the instruction completes. -/
theorem faultsAreExactlyThoseOfTheTable : Obligations.FaultsAreExactlyThoseOfTheTable := by
  refine ⟨fun i s c a hr => ⟨exec_of_raises hr, (faultRecord_raises hr).addr_toNat⟩, fun i s hr => ?completes, rfl⟩
  case completes =>
    obtain ⟨t, he, hc⟩ := exec_of_raises_none hr
    exact ⟨t, he, hc.status_eq⟩

/-- R140, R321: a step takes a fault, precise but for LOAD_LOCK, or keeps HALTED. -/
theorem step_raises_or_keeps_halted (hs : step s = .next t) :
    (∃ c a, FaultRecord c a ∧ t = s.lock.raise c a) ∨ t.halted = s.halted := by
  rcases step_cases s with ⟨_, he⟩ | ⟨_, _, he⟩ | ⟨op, _, _, _, ⟨i, _, he⟩ | ⟨_, he⟩⟩
  · cases he.symm.trans hs
    exact .inr rfl
  · cases he.symm.trans hs
    exact .inl ⟨_, _, faultRecord_range (.inl rfl) s.pc, rfl⟩
  · rcases exec_cases (he.symm.trans hs) with ⟨c, a, hr, ht⟩ | ⟨_, hc⟩
    · exact .inl ⟨c, a, faultRecord_raises hr, ht⟩
    · exact .inr hc.status_eq.1
  · cases he.symm.trans hs
    exact .inr rfl

/-- Settles O40: of the two cases of `step_raises_or_keeps_halted`, only the fault halts a live CORE. -/
theorem faultsArePrecise : Obligations.FaultsArePrecise := by
  intro s t hs hlive hhalt
  rcases step_raises_or_keeps_halted hs with ⟨c, a, ⟨hc, _⟩, rfl⟩ | hkeep
  · exact ⟨hc, rfl⟩
  · cases hlive.symm.trans (hkeep.symm.trans hhalt)

/-! ## What each host operation does (R327 to R332, R372) -/

theorem portStep_of_next (hs : step s = .next t) : portStep s = t := by
  simp only [portStep, hs]

/-- R372: LOAD is refused on a locked CORE and for an image that does not fit. -/
theorem portLoad_of_refused {bytes : List Byte} (h : s.loadLock = true ∨ 3584 < bytes.length) :
    portLoad bytes s = (.loadError, s) := by
  rcases h with hlock | hlong
  · exact if_pos hlock
  · have hfit : ¬ imageFits bytes = true := by simpa [imageFits] using hlong
    simp only [portLoad, if_neg hfit, ite_self]

/-- R372: else LOAD stores the image and locks. -/
theorem portLoad_of_accepted {bytes : List Byte} (hlock : s.loadLock = false) (hlen : bytes.length ≤ 3584) :
    portLoad bytes s = (.ok, (s.writeBytes 512 bytes).lock) := by
  have hfit : imageFits bytes = true := by simpa [imageFits] using hlen
  simp [portLoad, hlock, hfit]

/-- Settles O46, by `countDown_toNat`. -/
theorem tickCountsDownAndSaturates : Obligations.TickCountsDownAndSaturates := fun s =>
  ⟨countDown_toNat s.dt, countDown_toNat s.st, rfl⟩

/-- Settles O47: SET_KEYS is one write of the latch. -/
theorem setKeysOverwritesTheLatch : Obligations.SetKeysOverwritesTheLatch := fun _ _ =>
  ⟨fun _ _ => rfl, rfl⟩

/-- Settles O50: the state that each read answers is the one it is given. -/
theorem readsReturnTheStateAndChangeNothing : Obligations.ReadsReturnTheStateAndChangeNothing := fun _ =>
  ⟨rfl, rfl, rfl⟩

/-! ## The invariant under host operations (R327) -/

/-- The invariant says nothing of the key latch, the timers and the count of draws. -/
theorem State.Inv.of_inputs (h : s.Inv) (k : BitVec 16) (d e : Byte) (n : Nat) :
    ({ s with key := k, dt := d, st := e, draws := n } : State).Inv :=
  ⟨h.memory, h.pc, h.stack, h.index, h.halted, h.faultAddr, h.lock⟩

/-- Bytes stored inside memory keep the invariant. -/
theorem State.Inv.writeBytes (h : s.Inv) {a : Nat} {bs : List Byte} (ha : a + bs.length ≤ 4096) :
    (s.writeBytes a bs).Inv := by
  rw [State.writeBytes_eq]
  exact ⟨State.wf_writeBytes bs a s h.memory ha, h.pc, h.stack, h.index, h.halted, h.faultAddr, h.lock⟩

theorem portStep_inv (h : s.Inv) : (portStep s).Inv := by
  obtain ⟨t, hs⟩ := step_next s
  exact portStep_of_next hs ▸ step_inv h hs

theorem portLoad_inv (h : s.Inv) (bytes : List Byte) : (portLoad bytes s).2.Inv := by
  by_cases hrefused : s.loadLock = true ∨ 3584 < bytes.length
  · rw [portLoad_of_refused hrefused]
    exact h
  · obtain ⟨hlock, hlen⟩ := not_or.mp hrefused
    rw [portLoad_of_accepted (by simpa using hlock) (by omega)]
    exact (h.writeBytes (by omega)).lock_inv

/-- Every host operation keeps the invariant. -/
theorem portApply_inv (h : s.Inv) (op : PortOp) : (portApply op s).1.Inv := by
  cases op with
  | reset => exact (resetWith_inv s.params).of_inputs _ _ _ s.draws
  | load bytes => exact portLoad_inv h bytes
  | setKeys k => exact h.of_inputs k _ _ _
  | step => exact portStep_inv h
  | tick => exact h.of_inputs _ (countDown s.dt) (countDown s.st) _
  | readDisplay | readSt | readStatus => exact h

/-- Settles O44, by induction on the operations with `portApply_inv`. -/
theorem everyRunOfHostOperationsKeepsTheInvariant : Obligations.EveryRunOfHostOperationsKeepsTheInvariant := by
  intro ops
  induction ops with
  | nil => exact fun _ h => h
  | cons op ops ih => exact fun s h => ih _ (portApply_inv h op)

/-! ## The halted CORE (R325, R337) -/

/-- An operation other than RESET writes at most the key latch and the timers of a halted CORE. -/
theorem portApply_of_halted (hh : s.halted = true) (hl : s.loadLock = true) {op : PortOp} (hop : op ≠ .reset) :
    ∃ k d e, (portApply op s).1 = ((s.setKey k).setDt d).setSt e := by
  cases op with
  | reset => exact absurd rfl hop
  | load bytes => exact ⟨s.key, s.dt, s.st, congrArg Prod.snd (portLoad_of_refused (.inl hl))⟩
  | setKeys k => exact ⟨k, s.dt, s.st, rfl⟩
  | step => exact ⟨s.key, s.dt, s.st, portStep_of_next (step_of_halted hh)⟩
  | tick => exact ⟨s.key, countDown s.dt, countDown s.st, rfl⟩
  | readDisplay | readSt | readStatus => exact ⟨s.key, s.dt, s.st, rfl⟩

/-- So does every sequence of them: what they may write keeps the CORE halted and locked. -/
theorem portRun_of_halted (ops : List PortOp) (hh : s.halted = true) (hl : s.loadLock = true)
    (hops : PortOp.reset ∉ ops) : ∃ k d e, portRun ops s = ((s.setKey k).setDt d).setSt e := by
  induction ops generalizing s with
  | nil => exact ⟨s.key, s.dt, s.st, rfl⟩
  | cons op ops ih =>
    obtain ⟨hop, hrest⟩ := not_or.mp (mt List.mem_cons.mpr hops)
    obtain ⟨k, d, e, hstep⟩ := portApply_of_halted hh hl (Ne.symm hop)
    obtain ⟨k', d', e', hrun⟩ := ih (s := ((s.setKey k).setDt d).setSt e) hh hl hrest
    exact ⟨k', d', e', (congrArg (portRun ops) hstep).trans hrun⟩

/-- Settles O41, by `portRun_of_halted`; RESET writes the status itself. -/
theorem haltLastsUntilReset : Obligations.HaltLastsUntilReset := by
  refine ⟨fun ops s hh hl hops => ?lasts, fun _ => ⟨rfl, rfl, rfl⟩⟩
  case lasts =>
    obtain ⟨k, d, e, hrun⟩ := portRun_of_halted ops hh hl hops
    rw [hrun]
    rfl

end Sys2Proof.Machine
end

section
/-! Reset and LOAD (70_reset_and_hazards.md): the reset value of every piece of state, the image that LOAD stores, and the
first step after both. -/

namespace Sys2Proof.Machine

variable {s : State}

/-! ## LOAD (R372) -/

/-- Settles O48: refusal by `portLoad_of_refused`; else the image is one store of bytes, and the lock leaves memory. -/
theorem loadStoresTheImageOrIsRefused : Obligations.LoadStoresTheImageOrIsRefused := by
  refine ⟨fun _ _ => portLoad_of_refused, fun bytes s hlock hlen => ?accepted⟩
  case accepted =>
    have hfit : 512 + bytes.length ≤ Config.memSize := Nat.add_le_add_left hlen 512
    refine ⟨_, portLoad_of_accepted hlock hlen, fun hwf => State.readByte_writeBytes_inside bytes 512 s hwf hfit,
      fun _ => State.readByte_writeBytes_outside bytes 512 s, ?frame⟩
    case frame =>
      rw [State.writeBytes_eq]
      rfl

/-! ## The first step (R373) -/

/-- Storing bytes leaves HALTED. -/
@[simp] theorem writeBytes_halted (a : Nat) (bs : List Byte) : (s.writeBytes a bs).halted = s.halted := by
  rw [State.writeBytes_eq]

/-- R73, R141: of bytes stored at PC, the fetch reads the first two as a big-endian word. -/
theorem fetch_writeBytes_at_pc (hwf : s.mem.wf s.params) (hi lo : Byte) (rest : List Byte)
    (hfit : s.pc.toNat + (hi :: lo :: rest).length ≤ Config.memSize) :
    (s.writeBytes s.pc.toNat (hi :: lo :: rest)).fetch = some (wordOfBytes hi lo) := by
  have hread := State.readByte_writeBytes_inside (hi :: lo :: rest) s.pc.toNat s hwf hfit
  have hpc : s.pc.toNat + 1 < 4096 := by
    simp only [List.length_cons, Config.memSize] at hfit
    omega
  rw [fetch_eq_some (by rwa [writeBytes_pc]), writeBytes_pc]
  exact congrArg some (congrArg₂ wordOfBytes (hread 0 (by simp)) (hread 1 (by simp)))

/-- Settles O49: RESET leaves PC where LOAD stores and a memory in canonical form, so the word stored there is fetched; a
step's lock changes nothing after LOAD's. -/
theorem bootRunsTheFirstWordOfTheImage : Obligations.BootRunsTheFirstWordOfTheImage := by
  intro s hi lo rest himage
  have hlen : (hi :: lo :: rest).length ≤ 3584 := of_decide_eq_true himage
  have hfetch := fetch_writeBytes_at_pc (s := portReset s) (resetWith_inv s.params).memory hi lo rest
    (Nat.add_le_add_left hlen 512)
  exact ⟨_, portLoad_of_accepted rfl hlen, writeBytes_pc 512 _, hfetch,
    fun _ => step_of_fetch (writeBytes_halted 512 _) hfetch⟩

/-! ## RESET (R370, R371) -/

/-- R371: byte k of glyph d is at `5d + k`. -/
theorem resetByte_font (p : Config.Params) (d : Fin 16) (k : Fin 5) :
    resetByte p (5 * d.val + k.val) = p.font[d.val][k.val] := by
  have hd : (5 * d.val + k.val) / Config.fontStride = d.val := by
    simp only [Config.fontStride]
    omega
  have hk : (5 * d.val + k.val) % Config.fontStride = k.val := by
    simp only [Config.fontStride]
    omega
  rw [resetByte, dif_pos (by omega)]
  simp only [hd, hk]

/-- R370: beyond the font, memory is 0. -/
theorem resetByte_beyond_font (p : Config.Params) {a : Nat} (h : 80 ≤ a) : resetByte p a = 0 :=
  dif_neg (Nat.not_lt.mpr h)

/-- Settles O45: memory reads as `resetByte` says, each other piece of state is written out in `State.resetWith`, and
neither the parameters nor the draws of the state before are left once both are replaced. -/
theorem resetInitializesAllState : Obligations.ResetInitializesAllState := by
  refine ⟨fun s => ⟨_, rfl, fun j => ?v, rfl, rfl, rfl, fun j => ?stack, rfl, rfl, Display.cell_clear, rfl,
    resetByte_font s.params, fun _ hlow _ => resetByte_beyond_font s.params hlow, rfl, rfl, rfl, rfl, rfl⟩, fun _ => rfl⟩
  case v => exact Vector.getElem_replicate j.isLt
  case stack => exact Vector.getElem_replicate j.isLt

end Sys2Proof.Machine
end
